-- ==== Sys2Proof/Config.lean ====
section
/-! DEFINITION. What is fixed for the machine: the parameters of 00_scope.md R4, and the free values the spec leaves open. -/

namespace Sys2Proof.Config

/-- The default of the parameter `W`, the width in bits of the accumulator and of each memory cell (R4, R5; decision D1).
DESIGN CHOICE (log 1): `exec`, `step` and `core` are the machine of this width; the words, the state, every meaning and
`transaction` take `W` as an argument. -/
abbrev W : Nat := 32

/-- The least `W` a model may have, so that every value the loader can store is a word (R4). -/
abbrev minWidth : Nat := 18

/-- `MEM_SIZE`: the number of words of memory, addresses 0 to 99 (R4, R50). -/
abbrev memSize : Nat := 100

/-- `DATA_MIN`: the least runtime input value (R4). -/
abbrev dataMin : Int := -9999

/-- `DATA_MAX`: the greatest runtime input value (R4). -/
abbrev dataMax : Int := 9999

/-- `OPCODES`: the recognized operation codes (R4, R75; 90_conflicts.md C3). -/
def opcodes : List Int := [10, 11, 20, 21, 30, 31, 32, 33, 40, 41, 42, 43]

/-- The values `FETCH_LIMIT` may have: 98 or 99, and no other (R101, decision D4, 90_conflicts.md C1). -/
inductive FetchLimit
  | at98
  | at99
  deriving DecidableEq, Repr

/-- The highest instruction-counter value at which a fetch happens (R4). -/
def FetchLimit.value : FetchLimit → Nat
  | .at98 => 98
  | .at99 => 99

/-- `FETCH_LIMIT` of this machine: the spec's default 98 (R4, R101).
DESIGN CHOICE (log 2): `Machine.transaction` takes the limit as an argument, so that a claim can be made for both. -/
def fetchLimit : FetchLimit := .at98

/-- `STOP_SENTINEL`: ends the program path of the loader (R4, R241). -/
abbrev stopSentinel : Int := -99999

/-- `DEMO_SENTINEL`: as the first loader input, selects the demonstration program (R4, R241). -/
abbrev demoSentinel : Int := -88888

/-- The length of `DEMO_PROGRAM`, at most 100 words (R4, decision D11). A FREE VALUE (log 3): nothing constrains it. -/
opaque demoLength : Fin 101

/-- The words of `DEMO_PROGRAM`, by the machine's width and the position (R4, decision D11). A FREE VALUE (log 3): nothing
constrains it. -/
opaque demoWord : (width : Nat) → Nat → BitVec width

/-- `DEMO_PROGRAM`: the built-in demonstration program of the machine of a width, a list of at most 100 words whose contents
the spec leaves open. -/
def demoProgram (width : Nat) : List (BitVec width) := (List.range demoLength.val).map (demoWord width)

end Sys2Proof.Config
end

