-- ==== Sys2Proof/Word.lean ====
section
/-! DEFINITION. The two kinds of register contents: the word and the instruction counter. -/

namespace Sys2Proof

/-- A word: a signed W-bit two's-complement value, type sW of R10, the contents of `ACC`, `IR`, `OPC`, `OPD` and of a
memory cell (R22, R27 to R29, R51). Its integer is `BitVec.toInt`. `W` is the parameter of R4; `Word` alone is a word of
the default width. -/
abbrev Word (W : Nat := Config.W) := BitVec W

/-- The instruction counter's contents: an unsigned 7-bit value, type u7 (R24, decision D25). -/
abbrev Counter := BitVec 7

end Sys2Proof
end

