-- ==== Sys2Proof/Syntax.lean ====
section
/-! DEFINITION. The instruction set: one constructor per row of spec/opcode_table.json (30_encoding.md R75). -/

namespace Sys2Proof

/-- The twelve instructions, each with its two-digit operand `aa` (R73, R74). HALT keeps its operand digits, which
nothing reads (R77), so that encoding gives back the very word that was decoded. -/
inductive Instr
  | read (aa : Nat)
  | write (aa : Nat)
  | load (aa : Nat)
  | store (aa : Nat)
  | add (aa : Nat)
  | subtract (aa : Nat)
  | divide (aa : Nat)
  | multiply (aa : Nat)
  | branch (aa : Nat)
  | branchneg (aa : Nat)
  | branchzero (aa : Nat)
  | halt (aa : Nat)
  deriving DecidableEq, Repr

/-- The operand field of an instruction (R73). -/
def Instr.operand : Instr → Nat
  | .read aa => aa
  | .write aa => aa
  | .load aa => aa
  | .store aa => aa
  | .add aa => aa
  | .subtract aa => aa
  | .divide aa => aa
  | .multiply aa => aa
  | .branch aa => aa
  | .branchneg aa => aa
  | .branchzero aa => aa
  | .halt aa => aa

end Sys2Proof
end

