-- ==== Sys2Proof/WellFormed.lean ====
section
/-! DEFINITION. Which instructions an encoding exists for: the operand is two decimal digits (30_encoding.md R73, R75). -/

namespace Sys2Proof

/-- An instruction is well formed when its operand lies in 00 to 99; every such operand is legal for every
operation code (R75, R77). -/
def Instr.wellFormed (i : Instr) : Bool :=
  decide (i.operand ≤ 99)

end Sys2Proof
end

