-- ==== Sys2Proof/Decode.lean ====
section
/-! DEFINITION. The integer primitives of the spec's notation (`wrap_W`, `quot`, `rem`), the decoder, total on every
word and rejecting by name, and the encoder (30_encoding.md R70 to R79). -/

namespace Sys2Proof

/-- `wrap_W(v)`: the word of width `w` congruent to `v` modulo 2^w (R11). -/
def wrap {w : Nat} (v : Int) : BitVec w :=
  BitVec.ofInt w v

/-- `quot(a, b)`: integer division truncated toward zero (R12, decision D3, log 9). -/
def quot (a b : Int) : Int :=
  a.tdiv b

/-- `rem(a, b)`: the remainder of `quot`, `a - b * quot(a, b)`, with the sign of `a` or zero (R12). -/
def rem (a b : Int) : Int :=
  a - b * quot a b

/-- What the decode phase writes into `OPC`: quot(IR, 100) (R72, R103). -/
def opcodeOf {W : Nat} (ir : Word W) : Word W :=
  wrap (quot ir.toInt 100)

/-- What the decode phase writes into `OPD`: rem(IR, 100) (R72, R103). -/
def operandOf {W : Nat} (ir : Word W) : Word W :=
  wrap (rem ir.toInt 100)

/-- Why a word is no instruction: its operation code is not one of the twelve (R76). The code is carried along. -/
inductive DecodeError
  | illegalOpcode (opc : Int)
  deriving DecidableEq, Repr

/-- Dispatch: exactly one instruction for each of the twelve operation codes, no instruction for any other
(R75, R104). The operand of a recognized word is never negative (R29). -/
def select (opc opd : Int) : Except DecodeError Instr :=
  if opc = 10 then .ok (.read opd.toNat)
  else if opc = 11 then .ok (.write opd.toNat)
  else if opc = 20 then .ok (.load opd.toNat)
  else if opc = 21 then .ok (.store opd.toNat)
  else if opc = 30 then .ok (.add opd.toNat)
  else if opc = 31 then .ok (.subtract opd.toNat)
  else if opc = 32 then .ok (.divide opd.toNat)
  else if opc = 33 then .ok (.multiply opd.toNat)
  else if opc = 40 then .ok (.branch opd.toNat)
  else if opc = 41 then .ok (.branchneg opd.toNat)
  else if opc = 42 then .ok (.branchzero opd.toNat)
  else if opc = 43 then .ok (.halt opd.toNat)
  else .error (.illegalOpcode opc)

/-- The instruction a fetched word stands for, or the reason it is none: the decode of R72 followed by the choice of R75. -/
def decode {W : Nat} (ir : Word W) : Except DecodeError Instr :=
  select (opcodeOf ir).toInt (operandOf ir).toInt

/-- The operation code of an instruction: the opcode map of R75. -/
def Instr.opcode : Instr → Int
  | .read _ => 10
  | .write _ => 11
  | .load _ => 20
  | .store _ => 21
  | .add _ => 30
  | .subtract _ => 31
  | .divide _ => 32
  | .multiply _ => 33
  | .branch _ => 40
  | .branchneg _ => 41
  | .branchzero _ => 42
  | .halt _ => 43

/-- The word of an instruction: operation-code × 100 + operand (R70). -/
def encode {W : Nat} (i : Instr) : Word W :=
  wrap (i.opcode * 100 + i.operand)

/-- The cell that holds an instruction whose bits are the number `w`, bit 0 the least significant (R70). Every instruction
is one whole cell (R71), here of the default width, so a row of the opcode table that is given fewer bits than W leaves
the bits above them 0, which they are in `w` itself. -/
def tableCell (w : Nat) : Word :=
  BitVec.ofNat Config.W w

/-- The instruction the decoder reads from the instruction whose bits are `w`, none where the decoder rejects it. The
number of bits does not matter beyond what `tableCell` says. -/
def decodeTableWord (_nbits w : Nat) : Option Instr :=
  (decode (tableCell w)).toOption

end Sys2Proof
end

