-- ==== Sys2Proof/Machine/Alu.lean ====
section
/-! DEFINITION. The signed-integer ALU, for every width (43_arithmetic.md R140 to R145): the exact integer result of the
operands, then `wrap_W`. Overflow sets nothing and is not trapped (R142, R206; decision D2, log 8). -/

namespace Sys2Proof.Machine

/-- ADD's result: wrap_W(a + b) (R142, R143). -/
def aluAdd {w : Nat} (a b : BitVec w) : BitVec w :=
  wrap (a.toInt + b.toInt)

/-- SUBTRACT's result: wrap_W(a - b), the accumulator minus the memory word (R140, R142, R143). -/
def aluSub {w : Nat} (a b : BitVec w) : BitVec w :=
  wrap (a.toInt - b.toInt)

/-- MULTIPLY's result: wrap_W(a * b) (R142, R144). -/
def aluMul {w : Nat} (a b : BitVec w) : BitVec w :=
  wrap (a.toInt * b.toInt)

/-- DIVIDE's result for a divisor that is not 0: wrap_W(quot(a, b)), the accumulator divided by the memory word,
truncated toward zero (R140, R145; decision D3, log 9). The divisor 0 never reaches the ALU (R146). -/
def aluDiv {w : Nat} (a b : BitVec w) : BitVec w :=
  wrap (quot a.toInt b.toInt)

end Sys2Proof.Machine
end

