-- ==== Sys2Proof/Machine/State.lean ====
section
/-! DEFINITION. The architectural state of the CORE as plain data (10_state.md), its reset value, and why a step can
be not taken. -/

namespace Sys2Proof.Machine

/-- One memory cell that is listed: an address and the word it holds. -/
abbrev Cell (W : Nat := Config.W) := Nat × Word W

/-- The memory array `M[0..99]` (R50, R51) as a list of cells in one canonical form, `Memory.wf` of Machine/Ops.lean:
addresses strictly rising and at most 99, no cell that holds 0. An address that is not listed reads as 0, the value
reset gives every word (R35). DESIGN CHOICE (log 4): the cells are words, since the memory has no bytes (R55). -/
abbrev Memory (W : Nat := Config.W) := List (Cell W)

/-- `STATE`, the run state (R30). -/
inductive RunState
  | idle
  | running
  | halted
  | faulted
  deriving DecidableEq, Repr

/-- `STOP.cause`: why the machine stopped (R31, R209). -/
inductive StopCause
  | none
  | halt
  | runaway
  | divideByZero
  | illegalOpcode
  | addressFault
  | loadOverflow
  deriving DecidableEq, Repr

/-- `STOP`, the stop record (R31). -/
structure StopRecord (W : Nat := Config.W) where
  cause : StopCause
  addr : Int
  word : Word W
  deriving DecidableEq, Repr

/-- The state of the CORE: exactly what R20 lists, the loader's next address, which R241 implies, and the values
offered on `prog_in` that the loader has not consumed. `W` is the parameter of R4, fixed for a machine; `State` alone is
the state of the machine of the default width. -/
structure State (W : Nat := Config.W) where
  /-- `ACC`, the accumulator (R22). -/
  acc : Word W
  /-- `IC`, the instruction counter (R24). -/
  ic : Counter
  /-- `IR`, the instruction register (R27). -/
  ir : Word W
  /-- `OPC`, the decoded operation code (R28). -/
  opc : Word W
  /-- `OPD`, the decoded operand (R29). -/
  opd : Word W
  /-- `STATE`, the run state (R30). -/
  runState : RunState
  /-- `STOP`, the stop record (R31). -/
  stop : StopRecord W
  /-- `M[0..99]`, the memory (R50, R51). -/
  mem : Memory W
  /-- The runtime-input queue, oldest value first (R34, R120). -/
  rtQueue : List Int
  /-- The output trace, oldest value first (R34, R121). -/
  outTrace : List (Word W)
  /-- The model's own field: the values offered on `prog_in` and not consumed, oldest first (R42). DESIGN CHOICE (log 6). -/
  progIn : List Int
  /-- The loader's next address, the variable `a` of R241; 0 exactly until the first accepted value. DEDUCED (log 7). -/
  loadAddr : Nat
  deriving DecidableEq, Repr

/-- The machine of a width after power-on and after reset: R35, R230. -/
def State.resetAt (W : Nat) : State W where
  acc := 0
  ic := 0
  ir := 0
  opc := 0
  opd := 0
  runState := .idle
  stop := ⟨.none, 0, 0⟩
  mem := []
  rtQueue := []
  outTrace := []
  progIn := []
  loadAddr := 0

/-- The machine of the default width after power-on and after reset (R35, R230). -/
def State.reset : State :=
  State.resetAt Config.W

/-- Why no step is taken. The machine's own fatal conditions are not here: they are next states with `STATE = FAULTED`
(R201). In each of these the state stays as it is, and a host event or a reset can end the wait (log 5). -/
inductive Fault
  /-- Raised by READ with an empty runtime-input queue: the engine waits, all state unchanged (R107). Safe: the spec has
  no step here, and the READ runs as soon as a value is queued. -/
  | waitingForRuntimeInput
  /-- Raised by a step in `IDLE` with no value offered on `prog_in`: the loader waits (R42, R241). Safe: the spec has
  no step here. -/
  | waitingForProgramInput
  /-- Raised by a step in `HALTED` or `FAULTED`: no step is enabled, only reset leaves them (R30, R65). Safe: the spec
  has no step here. -/
  | stopped
  deriving DecidableEq, Repr

/-- Why an instruction has no meaning in the model. -/
inductive Refusal
  /-- Raised by an arm of `exec` for an instruction whose meaning is not written yet; the model has none left. Safe. -/
  | notModelled (mnemonic : String)
  deriving DecidableEq, Repr

end Sys2Proof.Machine
end

