-- ==== Sys2Proof/Machine/Ops.lean ====
section
/-! DEFINITION. The named operations over memory, registers and ports, and the one shared operation that raises a fatal
condition (00_scope.md R13 to R16, 20_memory.md R52, 60_exceptions.md R201). There is no return from a fatal condition
to write beside it: no handler exists, and only reset leaves a stopped state (R213). -/

namespace Sys2Proof.Machine

variable {W : Nat}

/-! ### The memory array -/

/-- The word at an address; an unlisted address reads as 0 (R35, R60). -/
def memGet : Memory W → Nat → Word W
  | [], _ => 0
  | (b, u) :: m, a => if a = b then u else memGet m a

/-- A cell in front of a memory, unless it holds what an unlisted address reads as. -/
def memCons (a : Nat) (v : Word W) (m : Memory W) : Memory W :=
  if v = 0 then m else (a, v) :: m

/-- The memory with the word at an address replaced; the canonical form is kept. -/
def memSet : Memory W → Nat → Word W → Memory W
  | [], a, v => memCons a v []
  | (b, u) :: m, a, v =>
    if a < b then memCons a v ((b, u) :: m)
    else if a = b then memCons a v m
    else (b, u) :: memSet m a v

/-- The canonical form from an address on: addresses strictly rising, at least `lo`, below 100, and no cell holds 0. -/
def Memory.wfFrom : Nat → Memory W → Bool
  | _, [] => true
  | lo, (b, u) :: m => decide (lo ≤ b) && decide (b < Config.memSize) && decide (u ≠ 0) && wfFrom (b + 1) m

/-- The canonical form of a memory. -/
def Memory.wf (m : Memory W) : Bool :=
  Memory.wfFrom 0 m

/-- Address validation: an address exists when it lies in 0 to 99 (R52). -/
def validAddress (a : Int) : Bool :=
  decide (0 ≤ a) && decide (a < Config.memSize)

/-- `MemRead(a, 1)`: the word at an address, or the invalid address (R14, R52). -/
def memRead (a : Int) (s : State W) : Except Int (Word W) :=
  if validAddress a then .ok (memGet s.mem a.toNat) else .error a

/-- `MemWrite(a, 1, v)`: the state with the word at an address replaced, or the invalid address (R14, R52). -/
def memWrite (a : Int) (v : Word W) (s : State W) : Except Int (State W) :=
  if validAddress a then .ok { s with mem := memSet s.mem a.toNat v } else .error a

/-! ### Registers -/

/-- `ACC <- v` (R13, R22). -/
def setAcc (v : Word W) (s : State W) : State W :=
  { s with acc := v }

/-- The counter advance `IC <- IC + 1` (R105). -/
def advance (s : State W) : State W :=
  { s with ic := s.ic + 1 }

/-- `IC <- target`, the absolute word address of a taken branch (R160, R163). -/
def jump (target : Nat) (s : State W) : State W :=
  { s with ic := BitVec.ofNat 7 target }

/-- The address in `IC`, as an integer (R24). -/
def pcAddr (s : State W) : Int :=
  s.ic.toNat

/-- The fetch and decode writes of a step, for the word fetched: `IR`, `OPC`, `OPD` (R102, R103). -/
def fetchDecode (w : Word W) (s : State W) : State W :=
  { s with ir := w, opc := opcodeOf w, opd := operandOf w }

/-! ### Ports -/

/-- `OutPut(v)`: a value appended to the output trace; it never waits and never fails (R121, R45). -/
def outPut (v : Word W) (s : State W) : State W :=
  { s with outTrace := s.outTrace ++ [v] }

/-- The oldest value of the runtime-input queue removed, as `InTake()` leaves it (R16, R120). -/
def dropInput (s : State W) : State W :=
  { s with rtQueue := s.rtQueue.tail }

/-- The runtime-value validator of the port `rt_in`: -9999 to 9999 (R120). -/
def acceptsRuntime (v : Int) : Bool :=
  decide (Config.dataMin ≤ v) && decide (v ≤ Config.dataMax)

/-! ### Stopping -/

/-- `Stop(cause)`: the run state goes to a terminal value and the stop record is written (R16, R31). -/
def stopWith (st : RunState) (cause : StopCause) (addr : Int) (word : Word W) (s : State W) : State W :=
  { s with runState := st, stop := ⟨cause, addr, word⟩ }

/-- `raise c(info)`: fatal entry. `STATE <- FAULTED`, `STOP <- (c, addr, word)`, and nothing else; the caller hands over
the state of the step after its fetch and decode writes and before any effect of the instruction (R15, R201;
decision D5, log 10). -/
def raise (cause : StopCause) (addr : Int) (word : Word W) (s : State W) : State W :=
  stopWith .faulted cause addr word s

/-- `raise AddressFault(a)`: records the invalid address and `IR` (R204, R209). -/
def raiseAddressFault (a : Int) (s : State W) : State W :=
  raise .addressFault a s.ir s

/-- A fatal condition of the instruction in `IR` at `IC`: records its address and word (R202, R203, R209). -/
def raiseHere (cause : StopCause) (s : State W) : State W :=
  raise cause (pcAddr s) s.ir s

/-- The number of a stop cause (R209). -/
def StopCause.code : StopCause → Nat
  | .none => 0
  | .halt => 1
  | .runaway => 2
  | .divideByZero => 3
  | .illegalOpcode => 4
  | .addressFault => 5
  | .loadOverflow => 6

end Sys2Proof.Machine
end

