-- ==== Sys2Proof/Machine/Operands.lean ====
section
/-! DEFINITION. The one operand form of the ISA: direct addressing (20_memory.md R54, 30_encoding.md R74). An instruction
reads at most one memory word or writes at most one. -/

namespace Sys2Proof.Machine

variable {W : Nat}

/-- The address of an instruction's data access: the operand field, used as it stands (R54, R74). -/
def dataAddress (aa : Nat) : Int :=
  aa

/-- Hand the word at the operand's address to the rest of an instruction; an address that does not exist raises
AddressFault, which no encodable operand does (R52, R53). -/
def withOperand (aa : Nat) (s : State W) (rest : Word W → Host.Outcome (State W) Fault Refusal) :
    Host.Outcome (State W) Fault Refusal :=
  match memRead (dataAddress aa) s with
  | .error a => .next (raiseAddressFault a s)
  | .ok v => rest v

/-- Store a word at the operand's address and go on with the state after the store; an address that does not exist
raises AddressFault on the state before it (R15, R52, R53). -/
def storeOperand (aa : Nat) (v : Word W) (s : State W) (rest : State W → State W) : Host.Outcome (State W) Fault Refusal :=
  match memWrite (dataAddress aa) v s with
  | .error a => .next (raiseAddressFault a s)
  | .ok t => .next (rest t)

end Sys2Proof.Machine
end

