-- ==== Sys2Proof/Machine/Arithmetic.lean ====
section
/-! DEFINITION. The arithmetic instructions ADD, SUBTRACT, DIVIDE and MULTIPLY (43_arithmetic.md). -/

namespace Sys2Proof.Machine

variable {W : Nat}

/-- ADD (R150). -/
def execAdd (aa : Nat) (s : State W) : Host.Outcome (State W) Fault Refusal :=
  withOperand aa s fun b => .next (advance (setAcc (aluAdd s.acc b) s))

/-- SUBTRACT (R151). -/
def execSubtract (aa : Nat) (s : State W) : Host.Outcome (State W) Fault Refusal :=
  withOperand aa s fun b => .next (advance (setAcc (aluSub s.acc b) s))

/-- DIVIDE (R152): the divisor 0 raises DivideByZero before anything is written, whatever `ACC` is (R146). -/
def execDivide (aa : Nat) (s : State W) : Host.Outcome (State W) Fault Refusal :=
  withOperand aa s fun b =>
    if b = 0 then .next (raiseHere .divideByZero s)
    else .next (advance (setAcc (aluDiv s.acc b) s))

/-- MULTIPLY (R153). -/
def execMultiply (aa : Nat) (s : State W) : Host.Outcome (State W) Fault Refusal :=
  withOperand aa s fun b => .next (advance (setAcc (aluMul s.acc b) s))

end Sys2Proof.Machine
end

