-- ==== Sys2Proof/Machine/Flags.lean ====
section
/-! DEFINITION. The branch conditions. The CORE has no flags: no instruction writes a status bit, and the conditional
branches compute their condition from `ACC` when they execute (10_state.md R32, 44_control.md R164). -/

namespace Sys2Proof.Machine

variable {W : Nat}

/-- `ACC < 0`, the condition of BRANCHNEG, on the signed value (R161, R164). -/
def accNegative (s : State W) : Bool :=
  decide (s.acc.toInt < 0)

/-- `ACC = 0`, the condition of BRANCHZERO (R162, R164). -/
def accZero (s : State W) : Bool :=
  decide (s.acc.toInt = 0)

end Sys2Proof.Machine
end

