-- ==== Sys2Proof/Machine/Control.lean ====
section
/-! DEFINITION. The control instructions BRANCH, BRANCHNEG, BRANCHZERO and HALT (44_control.md). -/

namespace Sys2Proof.Machine

variable {W : Nat}

/-- BRANCH (R160): the operand replaces the instruction counter, which is not advanced. -/
def execBranch (aa : Nat) (s : State W) : Host.Outcome (State W) Fault Refusal :=
  .next (jump aa s)

/-- BRANCHNEG (R161): taken exactly when `ACC < 0`; not taken, the counter advances. -/
def execBranchneg (aa : Nat) (s : State W) : Host.Outcome (State W) Fault Refusal :=
  .next (if accNegative s then jump aa s else advance s)

/-- BRANCHZERO (R162): taken exactly when `ACC = 0`; not taken, the counter advances. -/
def execBranchzero (aa : Nat) (s : State W) : Host.Outcome (State W) Fault Refusal :=
  .next (if accZero s then jump aa s else advance s)

/-- HALT (R170): the operand is ignored (R77), and the counter advances (R105). -/
def execHalt (_aa : Nat) (s : State W) : Host.Outcome (State W) Fault Refusal :=
  .next (advance (stopWith .halted .halt (pcAddr s) s.ir s))

end Sys2Proof.Machine
end

