-- ==== Sys2Proof/Machine/InputOutput.lean ====
section
/-! DEFINITION. The input/output instructions READ and WRITE (41_io.md). Each meaning ends with the counter advance its
rule writes at its end (40_engine.md R105). -/

namespace Sys2Proof.Machine

variable {W : Nat}

/-- READ (R122): the oldest accepted runtime input goes to memory. While the queue is empty no step is taken (R107). -/
def execRead (aa : Nat) (s : State W) : Host.Outcome (State W) Fault Refusal :=
  match s.rtQueue with
  | [] => .fault .waitingForRuntimeInput
  | v :: _ => storeOperand aa (wrap v) s fun t => advance (dropInput t)

/-- WRITE (R123): a memory word goes to the output trace. -/
def execWrite (aa : Nat) (s : State W) : Host.Outcome (State W) Fault Refusal :=
  withOperand aa s fun v => .next (advance (outPut v s))

end Sys2Proof.Machine
end

