-- ==== Sys2Proof/Machine/LoadStore.lean ====
section
/-! DEFINITION. The load and store instructions LOAD and STORE (42_load_store.md). -/

namespace Sys2Proof.Machine

variable {W : Nat}

/-- LOAD (R130): a memory word goes to the accumulator. -/
def execLoad (aa : Nat) (s : State W) : Host.Outcome (State W) Fault Refusal :=
  withOperand aa s fun v => .next (advance (setAcc v s))

/-- STORE (R131): the accumulator goes to memory, unclamped. -/
def execStore (aa : Nat) (s : State W) : Host.Outcome (State W) Fault Refusal :=
  storeOperand aa s.acc s advance

end Sys2Proof.Machine
end

