-- ==== Sys2Proof/Machine/Dispatch.lean ====
section
/-! DEFINITION. The dispatch multiplexer over the twelve instructions (40_engine.md R104): one arm per constructor. -/

namespace Sys2Proof.Machine

/-- The execute action of an instruction, on the state after the fetch and decode writes of its step (R100, R104). -/
def exec (i : Instr) (s : State) : Host.Outcome State Fault Refusal :=
  match i with
  | .read aa => Sys2Proof.Machine.execRead aa s
  | .write aa => Sys2Proof.Machine.execWrite aa s
  | .load aa => Sys2Proof.Machine.execLoad aa s
  | .store aa => Sys2Proof.Machine.execStore aa s
  | .add aa => Sys2Proof.Machine.execAdd aa s
  | .subtract aa => Sys2Proof.Machine.execSubtract aa s
  | .divide aa => Sys2Proof.Machine.execDivide aa s
  | .multiply aa => Sys2Proof.Machine.execMultiply aa s
  | .branch aa => Sys2Proof.Machine.execBranch aa s
  | .branchneg aa => Sys2Proof.Machine.execBranchneg aa s
  | .branchzero aa => Sys2Proof.Machine.execBranchzero aa s
  | .halt aa => Sys2Proof.Machine.execHalt aa s

end Sys2Proof.Machine
end

