-- ==== Sys2Proof/Machine/Execute.lean ====
section
/-! DEFINITION. The dispatch multiplexer for a machine of any width (40_engine.md R104; 00_scope.md R4). Machine/Dispatch.lean
is the same choice for the default width, over the same meanings. -/

namespace Sys2Proof.Machine

variable {W : Nat}

/-- The execute action of an instruction on a machine of width `W`, on the state after the fetch and decode writes of its
step (R100, R104). At the default width it is `exec` (Sys2Proof/Laws/Exec.lean, `exec_eq_execute`). -/
def execute (i : Instr) (s : State W) : Host.Outcome (State W) Fault Refusal :=
  match i with
  | .read aa => execRead aa s
  | .write aa => execWrite aa s
  | .load aa => execLoad aa s
  | .store aa => execStore aa s
  | .add aa => execAdd aa s
  | .subtract aa => execSubtract aa s
  | .divide aa => execDivide aa s
  | .multiply aa => execMultiply aa s
  | .branch aa => execBranch aa s
  | .branchneg aa => execBranchneg aa s
  | .branchzero aa => execBranchzero aa s
  | .halt aa => execHalt aa s

end Sys2Proof.Machine
end

