-- ==== Sys2Proof/Machine/Loader.lean ====
section
/-! DEFINITION. The program loader and its validator, the boot interface (70_reset_and_hazards.md R240 to R243). One
transaction consumes one integer of `prog_in` (R42). -/

namespace Sys2Proof.Machine

variable {W : Nat}

/-- The program-word validator: the two sentinels, and every value whose quotient by 100 is a recognized operation
code (R240; decision D12, log 12). -/
def acceptsProgramWord (v : Int) : Bool :=
  decide (v = Config.stopSentinel) || decide (v = Config.demoSentinel) || decide (quot v 100 ∈ Config.opcodes)

/-- Words stored at successive addresses from `a` on (R241). -/
def storeWords (a : Nat) (ws : List (Word W)) (m : Memory W) : Memory W :=
  match ws with
  | [] => m
  | w :: rest => storeWords (a + 1) rest (memSet m a w)

/-- The demonstration path: `DEMO_PROGRAM` copied from address 0 up, the other cells left as they are (R241). -/
def loadDemo (s : State W) : State W :=
  { s with mem := storeWords 0 (Config.demoProgram W) s.mem }

/-- The loader completes: `STATE <- RUNNING`; the registers keep their reset values (R243). -/
def startRun (s : State W) : State W :=
  { s with runState := .running }

/-- The program path: a word stored at the loader's next address; the 101st raises LoadOverflow (R241, R242, R208;
decision D9, log 13). The address is in 0 to 99 for every state the loader reaches. -/
def loadWord (v : Int) (s : State W) : State W :=
  if s.loadAddr = Config.memSize then raise .loadOverflow Config.memSize (wrap v) s
  else
    match memWrite s.loadAddr (wrap v) s with
    | .error a => raiseAddressFault a s
    | .ok t => { t with loadAddr := t.loadAddr + 1 }

/-- What the loader does with one value: a rejected value is discarded; -88888 as the first accepted value selects the
demonstration path; -99999 ends the load; every other accepted value, a later -88888 among them, is a program word
(R240, R241; decision D10, log 14). -/
def loadValue (v : Int) (s : State W) : State W :=
  if acceptsProgramWord v then
    if s.loadAddr = 0 ∧ v = Config.demoSentinel then startRun (loadDemo s)
    else if v = Config.stopSentinel then startRun s
    else loadWord v s
  else s

/-- One transaction of the loader: it waits while nothing is offered, and consumes one offered value (R42, R240). -/
def loaderStep (s : State W) : Host.Outcome (State W) Fault Refusal :=
  match s.progIn with
  | [] => .fault .waitingForProgramInput
  | v :: rest => .next (loadValue v { s with progIn := rest })

end Sys2Proof.Machine
end

