-- ==== Sys2Proof/Machine/Engine.lean ====
section
/-! DEFINITION. One step of the fetch-decode-execute engine (40_engine.md R100 to R107), and the machine's one step
over the run states. `FETCH_LIMIT` and the width `W` are arguments here (R4, R101). -/

namespace Sys2Proof.Machine

variable {W : Nat}

/-- The runaway guard: `IC > FETCH_LIMIT` (R101). -/
def guardFires (limit : Config.FetchLimit) (s : State W) : Bool :=
  decide (limit.value < s.ic.toNat)

/-- The soft stop of the guard: nothing is fetched, `IR` and every other register keep their values (R101, R207). -/
def stopRunaway (s : State W) : State W :=
  stopWith .halted .runaway (pcAddr s) s.ir s

/-- Dispatch on the decode registers: an instruction is executed, anything else raises IllegalOpcode (R104, R203). -/
def dispatch (s : State W) : Host.Outcome (State W) Fault Refusal :=
  match select s.opc.toInt s.opd.toInt with
  | .error _ => .next (raiseHere .illegalOpcode s)
  | .ok i => execute i s

/-- The step of R100: guard, fetch, decode, dispatch. The counter advance stands in each meaning (R105). A READ that
waits answers no next state, so its fetch leaves no trace (R107). -/
def engineStep (limit : Config.FetchLimit) (s : State W) : Host.Outcome (State W) Fault Refusal :=
  if guardFires limit s then .next (stopRunaway s)
  else
    match memRead (pcAddr s) s with
    | .error a => .next (raiseAddressFault a s)
    | .ok w => dispatch (fetchDecode w s)

/-- One transaction of the block (R40): the loader in `IDLE`, the engine in `RUNNING`, none in `HALTED` and `FAULTED`
(R30). -/
def transaction (limit : Config.FetchLimit) (s : State W) : Host.Outcome (State W) Fault Refusal :=
  match s.runState with
  | .idle => loaderStep s
  | .running => engineStep limit s
  | .halted => .fault .stopped
  | .faulted => .fault .stopped

/-- The machine of a width and a fetch limit, the two parameters of R4 that the spec decides by a default; `core` of
Machine/Core.lean is the one with both defaults. -/
def machine (W : Nat) (limit : Config.FetchLimit) : Host.Core where
  State := State W
  Fault := Fault
  Refusal := Refusal
  step := transaction limit
  reset := State.resetAt W

/-- A state made ready to run one word as its next instruction: `RUNNING`, the counter where it is if a fetch happens
there and else at the entry point 0, the word in the cell it points to, and, for a READ with an empty queue, one
runtime value 0, without which the step that fetches it is not taken (R107). Nothing else changes (log 15). -/
def placeInstruction (limit : Config.FetchLimit) (w : Word W) (s : State W) : State W :=
  let ic : Counter := if guardFires limit s then 0 else s.ic
  let queue := if s.rtQueue = [] ∧ opcodeOf w = 10 then [0] else s.rtQueue
  { s with runState := .running, ic := ic, mem := memSet s.mem ic.toNat w, rtQueue := queue }

end Sys2Proof.Machine
end

