-- ==== Sys2Proof/Machine/Step.lean ====
section
/-! DEFINITION. The machine's step, with the default `FETCH_LIMIT` and the default width, and the place of the next
instruction. -/

namespace Sys2Proof.Machine

/-- One step of the machine (R40, R100), with the spec's default `FETCH_LIMIT` (R101; log 2) and default `W` (R5; log 1).
`transaction` dispatches by `execute`, which at this width is `exec`. -/
def step (s : State) : Host.Outcome State Fault Refusal :=
  transaction Config.fetchLimit s

/-- The state with the instruction whose bits are `w` placed so that the very next step fetches and runs it (log 15). -/
def State.withFetchWord (s : State) (_nbits w : Nat) : State :=
  placeInstruction Config.fetchLimit (tableCell w) s

end Sys2Proof.Machine
end

