-- ==== Sys2Proof/Machine/Ports.lean ====
section
/-! DEFINITION. What the host can do to the block and what it can see (10_state.md R40 to R46, 70_reset_and_hazards.md
R244, R250). The host acts between steps. -/

namespace Sys2Proof.Machine

variable {W : Nat}

/-- The host's events (R250): reset, a value offered on `prog_in`, a value offered on `rt_in`. Reading `out` and
`status` and giving up waiting change nothing. -/
inductive HostEvent
  | reset
  | offerProgram (v : Int)
  | offerRuntime (v : Int)
  deriving DecidableEq, Repr

/-- A value offered on `prog_in` waits until the loader consumes it, which happens in `IDLE` only (R42; log 6). -/
def offerProgram (v : Int) (s : State W) : State W :=
  { s with progIn := s.progIn ++ [v] }

/-- A value offered on `rt_in`, in any state: queued if the validator accepts it, else discarded (R44, R120, R205;
decision D14, log 11). -/
def offerRuntime (v : Int) (s : State W) : State W :=
  if acceptsRuntime v then { s with rtQueue := s.rtQueue ++ [v] } else s

/-- The effect of a host event. Reset is accepted in every state and gives every piece of state its reset value (R41,
R230; decision D23, log 16). -/
def hostEvent (e : HostEvent) (s : State W) : State W :=
  match e with
  | .reset => State.resetAt W
  | .offerProgram v => offerProgram v s
  | .offerRuntime v => offerRuntime v s

/-- What the port `out` shows: the output trace (R45). -/
def output (s : State W) : List (Word W) :=
  s.outTrace

/-- The 100 memory words in address order (R46, R244). -/
def memoryWords (s : State W) : List (Word W) :=
  (List.range Config.memSize).map (memGet s.mem)

/-- What the read-only `status` interface presents, in any state (R46). -/
structure Status (W : Nat := Config.W) where
  runState : RunState
  stop : StopRecord W
  acc : Word W
  ic : Counter
  ir : Word W
  opc : Word W
  opd : Word W
  memory : List (Word W)
  deriving DecidableEq, Repr

/-- The status of a state (R46). -/
def status (s : State W) : Status W where
  runState := s.runState
  stop := s.stop
  acc := s.acc
  ic := s.ic
  ir := s.ir
  opc := s.opc
  opd := s.opd
  memory := memoryWords s

/-- What a run exposes at its end: the status and the output trace (R244); none while it has not ended. -/
def finalReport (s : State W) : Option (Status W × List (Word W)) :=
  match s.runState with
  | .idle => none
  | .running => none
  | .halted => some (status s, output s)
  | .faulted => some (status s, output s)

end Sys2Proof.Machine
end

