-- ==== Sys2Proof/Safety.lean ====
section
/-! DEFINITION. The terms claims use: what a step fetches, when one is enabled, what a reachable state is, the invariant
of the machine, and the states a run can be launched from. -/

namespace Sys2Proof.Machine

variable {W : Nat}

/-- A function applied to the next state of an outcome; a step that is not taken stays not taken. -/
def mapNext (f : State W → State W) : Host.Outcome (State W) Fault Refusal → Host.Outcome (State W) Fault Refusal
  | .next s => .next (f s)
  | .fault r => .fault r
  | .refused r => .refused r

/-- The engine is running, its guard lets the fetch happen, and the word fetched is `w` (R101, R102). -/
structure Fetches (limit : Config.FetchLimit) (s : State W) (w : Word W) : Prop where
  running : s.runState = .running
  inLimit : s.ic.toNat ≤ limit.value
  fetched : memGet s.mem s.ic.toNat = w

/-- The engine waits at a READ: the instruction fetched is a READ and no runtime input is queued (R107). -/
def WaitsForInput (limit : Config.FetchLimit) (s : State W) : Prop :=
  s.rtQueue = [] ∧ ∃ w aa, Fetches limit s w ∧ decode w = .ok (.read aa)

/-- A run that has not ended in a fatal condition (R201). -/
def NotFaulted (s : State W) : Prop :=
  s.runState ≠ .faulted

/-- The states the machine can be in: after power-on, after a step, after a host event (R40, R250). -/
inductive Reachable (limit : Config.FetchLimit) : State W → Prop
  | powerOn : Reachable limit (State.resetAt W)
  | step {s t : State W} : Reachable limit s → transaction limit s = .next t → Reachable limit t
  | host {s : State W} (e : HostEvent) : Reachable limit s → Reachable limit (hostEvent e s)

/-- What the program path of the loader can have stored: accepted values that are not the stop sentinel, the first one
not the demonstration sentinel (R240, R241). -/
def LoadableProgram (vs : List Int) : Prop :=
  (∀ v ∈ vs, acceptsProgramWord v = true ∧ v ≠ Config.stopSentinel) ∧ vs.head? ≠ some Config.demoSentinel ∧
    vs.length ≤ Config.memSize

/-- The value that completes the load: the stop sentinel, or the demonstration sentinel while no word is stored, so as the
first accepted value (R241; log 7). -/
def CompletesLoad (v : Int) (s : State W) : Prop :=
  v = Config.stopSentinel ∨ (v = Config.demoSentinel ∧ s.loadAddr = 0)

/-- The memory image of a list of words loaded from address 0 up, the rest 0 (R241). -/
def image (vs : List Int) : Memory W :=
  storeWords 0 (vs.map wrap) []

/-- The five registers and the output trace have their reset values (R35, R243). -/
structure RegistersAtReset (s : State W) : Prop where
  acc : s.acc = 0
  ic : s.ic = 0
  ir : s.ir = 0
  opc : s.opc = 0
  opd : s.opd = 0
  outTrace : s.outTrace = []

/-- The states the engine starts from (R245): registers at their reset values, memory holding `DEMO_PROGRAM` or a
loadable program from address 0 up, the rest 0. -/
structure LaunchState (s : State W) : Prop where
  running : s.runState = .running
  registers : RegistersAtReset s
  notStopped : s.stop = ⟨.none, 0, 0⟩
  memory : s.mem = storeWords 0 (Config.demoProgram W) [] ∨ ∃ vs, LoadableProgram vs ∧ s.mem = image vs

/-- While the loader works: the registers have their reset values and memory holds the values stored so far (R241). -/
structure LoadingState (s : State W) : Prop where
  registers : RegistersAtReset s
  memory : ∃ vs, LoadableProgram vs ∧ vs.length = s.loadAddr ∧ s.mem = image vs

/-- The stop record tells the truth about the state (R31, R209): the cause fits the run state, the address and the word
are those of the instruction concerned, and the condition the cause names holds. AddressFault is never recorded (R204). -/
def stopTruthful (limit : Config.FetchLimit) (s : State W) : Prop :=
  match s.stop.cause with
  | .none => (s.runState = .idle ∨ s.runState = .running) ∧ s.stop.addr = 0 ∧ s.stop.word = 0
  | .halt => s.runState = .halted ∧ s.opc = 43 ∧ s.stop.addr + 1 = pcAddr s ∧ s.stop.word = s.ir
  | .runaway => s.runState = .halted ∧ limit.value < s.ic.toNat ∧ s.stop.addr = pcAddr s ∧ s.stop.word = s.ir
  | .divideByZero =>
    s.runState = .faulted ∧ s.opc = 32 ∧ memGet s.mem s.opd.toNat = 0 ∧ s.stop.addr = pcAddr s ∧ s.stop.word = s.ir
  | .illegalOpcode =>
    s.runState = .faulted ∧ s.opc.toInt ∉ Config.opcodes ∧ s.stop.addr = pcAddr s ∧ s.stop.word = s.ir
  | .addressFault => False
  | .loadOverflow => s.runState = .faulted ∧ LoadingState s ∧ s.loadAddr = 100 ∧ s.stop.addr = 100

/-- The invariant of the machine: what holds of every reachable state and every step keeps. -/
structure Inv (limit : Config.FetchLimit) (s : State W) : Prop where
  /-- Memory keeps its canonical form; all listed addresses are in 0 to 99 (R50). -/
  memCanonical : s.mem.wf = true
  /-- A value outside [-9999, 9999] never enters the runtime-input queue (R34, R120). -/
  queueInRange : ∀ v ∈ s.rtQueue, acceptsRuntime v = true
  /-- `IC` never passes FETCH_LIMIT + 1 (R24, R26). -/
  counterBound : s.ic.toNat ≤ limit.value + 1
  /-- `OPC` and `OPD` are the decode of `IR` (R28, R29). -/
  opcDecoded : s.opc = opcodeOf s.ir
  opdDecoded : s.opd = operandOf s.ir
  /-- In `IDLE` the state is that of a load in progress (R241). -/
  loading : s.runState = .idle → LoadingState s
  /-- The stop record is true (R31, R209). -/
  stopTrue : stopTruthful limit s

end Sys2Proof.Machine
end

