-- ==== Sys2Proof/Certificates/Slice0/Pseudocode.lean ====
section
/-! DEFINITION. The spec's pseudocode of one engine step (40_engine.md R100 and the exec_X of 41 to 44), written out a
second time over mathematical integers and a memory function, with `wrap_W` and `quot` by the formulas of 00_scope.md
R11 and R12. The machine does not use it; a statement says the machine's engine does what it says. -/

namespace Sys2Proof.Pseudocode

open Sys2Proof.Machine

/-- The state R20 lists, every value a mathematical integer (R10). -/
structure Snapshot where
  ACC : Int
  IC : Int
  IR : Int
  OPC : Int
  OPD : Int
  STATE : RunState
  cause : StopCause
  addr : Int
  word : Int
  M : Int → Int
  inputs : List Int
  out : List Int

/-- wrap_W(v) by R11: the value in [-2^(W-1), 2^(W-1) - 1] congruent to v modulo 2^W. -/
def wrapW (W : Nat) (v : Int) : Int :=
  (v + 2 ^ (W - 1)) % 2 ^ W - 2 ^ (W - 1)

/-- quot(a, b) by R12: sign(a) · sign(b) · floor(|a| / |b|). -/
def truncQuot (a b : Int) : Int :=
  a.sign * b.sign * ((a.natAbs / b.natAbs : Nat) : Int)

/-- rem(a, b) by R12. -/
def truncRem (a b : Int) : Int :=
  a - b * truncQuot a b

/-- `raise c(info)` (R201). -/
def fail (c : StopCause) (addr word : Int) (p : Snapshot) : Option Snapshot :=
  some { p with STATE := .faulted, cause := c, addr := addr, word := word }

/-- The counter advance of R105. -/
def next (p : Snapshot) : Option Snapshot :=
  some { p with IC := p.IC + 1 }

/-- `MemRead(a, 1)` followed by the rest (R52). -/
def reading (a : Int) (p : Snapshot) (rest : Int → Option Snapshot) : Option Snapshot :=
  if a < 0 ∨ a > 99 then fail .addressFault a p.IR p else rest (p.M a)

/-- `MemWrite(a, 1, v)` followed by the rest (R52). -/
def writing (a v : Int) (p : Snapshot) (rest : Snapshot → Option Snapshot) : Option Snapshot :=
  if a < 0 ∨ a > 99 then fail .addressFault a p.IR p
  else rest { p with M := fun b => if b = a then v else p.M b }

/-- The execute action `OPC` selects (R104), `none` where the step is not taken (R107). -/
def execute (W : Nat) (p : Snapshot) : Option Snapshot :=
  if p.OPC = 10 then
    match p.inputs with
    | [] => none
    | v :: vs => writing p.OPD v p fun q => next { q with inputs := vs }
  else if p.OPC = 11 then reading p.OPD p fun v => next { p with out := p.out ++ [v] }
  else if p.OPC = 20 then reading p.OPD p fun v => next { p with ACC := v }
  else if p.OPC = 21 then writing p.OPD p.ACC p next
  else if p.OPC = 30 then reading p.OPD p fun b => next { p with ACC := wrapW W (p.ACC + b) }
  else if p.OPC = 31 then reading p.OPD p fun b => next { p with ACC := wrapW W (p.ACC - b) }
  else if p.OPC = 32 then
    reading p.OPD p fun b =>
      if b = 0 then fail .divideByZero p.IC p.IR p else next { p with ACC := wrapW W (truncQuot p.ACC b) }
  else if p.OPC = 33 then reading p.OPD p fun b => next { p with ACC := wrapW W (p.ACC * b) }
  else if p.OPC = 40 then some { p with IC := p.OPD }
  else if p.OPC = 41 then if p.ACC < 0 then some { p with IC := p.OPD } else next p
  else if p.OPC = 42 then if p.ACC = 0 then some { p with IC := p.OPD } else next p
  else if p.OPC = 43 then next { p with STATE := .halted, cause := .halt, addr := p.IC, word := p.IR }
  else fail .illegalOpcode p.IC p.IR p

/-- The step of R100, taken while `STATE = RUNNING`; `none` where no step is taken. -/
def engine (W : Nat) (fetchLimit : Int) (p : Snapshot) : Option Snapshot :=
  if p.IC > fetchLimit then some { p with STATE := .halted, cause := .runaway, addr := p.IC, word := p.IR }
  else
    reading p.IC p fun w => execute W { p with IR := w, OPC := truncQuot w 100, OPD := truncRem w 100 }

/-- What a state of the machine means in these terms; the memory function is 0 where there is no address. -/
def snapshot {W : Nat} (s : State W) : Snapshot where
  ACC := s.acc.toInt
  IC := s.ic.toNat
  IR := s.ir.toInt
  OPC := s.opc.toInt
  OPD := s.opd.toInt
  STATE := s.runState
  cause := s.stop.cause
  addr := s.stop.addr
  word := s.stop.word.toInt
  M := fun a => if 0 ≤ a ∧ a ≤ 99 then (memGet s.mem a.toNat).toInt else 0
  inputs := s.rtQueue
  out := s.outTrace.map BitVec.toInt

/-- The machine's outcome in these terms: `none` where no step is taken. -/
def outcome {W : Nat} : Host.Outcome (State W) Fault Refusal → Option Snapshot
  | .next t => some (snapshot t)
  | .fault _ => none
  | .refused _ => none

end Sys2Proof.Pseudocode
end

