-- ==== Sys2Proof/Certificates/Slice0/Obligations.lean ====
section
/-! DEFINITION. The statements about the machine, for the provers. `W` is the width (R4), every one of at least
`Config.minWidth` = 18, and `limit` is FETCH_LIMIT, always either of its two values (R101). `exec`, `step` and `core` have
both defaults, and `State` alone is the state of the default width: `exec` is `execute` there, `step` is
`transaction` (StepRunsTheDecodedInstruction). Each instruction's statement says its effect once for `execute` at every
width and once for `exec`. -/

open Sys2Proof Sys2Proof.Machine

/-! ### Integers and the ALU, for every width -/

/-- R11: `wrap_W(v)` is the unique integer of sW congruent to v modulo 2^W. Decision D2 (log 8). -/
def Obligations.WrapIsTheCongruentWord : Prop :=
  ∀ (w : Nat) (v r : Int), 0 < w →
    ((wrap v : BitVec w).toInt = r ↔
      -(2 : Int) ^ (w - 1) ≤ r ∧ r ≤ (2 : Int) ^ (w - 1) - 1 ∧ (2 : Int) ^ w ∣ r - v)

/-- R12: quot is sign(a) · sign(b) · floor(|a| / |b|), rem is a - b · quot(a, b), smaller than |b| and with the sign of a
or zero. Decision D3 (log 9). -/
def Obligations.QuotTruncatesTowardZero : Prop :=
  ∀ a b : Int, b ≠ 0 →
    quot a b = a.sign * b.sign * ((a.natAbs / b.natAbs : Nat) : Int) ∧
    rem a b = a - b * quot a b ∧ (rem a b).natAbs < b.natAbs ∧ (rem a b = 0 ∨ (rem a b).sign = a.sign)

/-- R143, R144: operands in the data range give the exact sum and difference for W ≥ 16 and the exact product for
W ≥ 28. -/
def Obligations.AluIsExactInTheDataRange : Prop :=
  ∀ (w : Nat) (a b : BitVec w),
    Config.dataMin ≤ a.toInt → a.toInt ≤ Config.dataMax → Config.dataMin ≤ b.toInt → b.toInt ≤ Config.dataMax →
    (16 ≤ w → (aluAdd a b).toInt = a.toInt + b.toInt ∧ (aluSub a b).toInt = a.toInt - b.toInt) ∧
    (28 ≤ w → (aluMul a b).toInt = a.toInt * b.toInt)

/-- R145: a divisor other than 0 gives the truncated quotient at every width, with one overflowing case, the least
value divided by -1, which gives the least value. Decision D3 (log 9). -/
def Obligations.DivisionOverflowsInOneCaseOnly : Prop :=
  ∀ (w : Nat) (a b : BitVec w), 0 < w → b ≠ 0 →
    (¬ (a.toInt = -(2 : Int) ^ (w - 1) ∧ b.toInt = -1) → (aluDiv a b).toInt = quot a.toInt b.toInt) ∧
    (a.toInt = -(2 : Int) ^ (w - 1) ∧ b.toInt = -1 → aluDiv a b = a)

/-! ### Encoding -/

/-- Words written out in binary from the opcode map (R75), one of each family, and two that are no instruction (R76). -/
def Obligations.DecodingOfWrittenWords : Prop :=
  decode (0b1111110001 : Word) = .ok (.read 9) ∧            -- 1009
  decode (0b10001010110 : Word) = .ok (.write 10) ∧         -- 1110
  decode (0b11111011001 : Word) = .ok (.load 9) ∧           -- 2009
  decode (0b100001001000 : Word) = .ok (.store 20) ∧        -- 2120
  decode (0b101111000010 : Word) = .ok (.add 10) ∧          -- 3010
  decode (0b110010001011 : Word) = .ok (.divide 11) ∧       -- 3211
  decode (0b111110100010 : Word) = .ok (.branch 2) ∧        -- 4002
  decode (0b1000100101111 : Word) = .ok (.halt 99) ∧        -- 4399
  decode (0 : Word) = .error (.illegalOpcode 0) ∧
  decode (0b10010110000 : Word) = .error (.illegalOpcode 12) -- 1200

/-- R72, R28, R29, R103: for every word, `OPC` is quot(IR, 100) and `OPD` is rem(IR, 100), in -99 to 99; neither wraps.
Truncation is decision D3 (log 9). -/
def Obligations.DecodeSplitsByHundred : Prop :=
  ∀ (W : Nat) (ir : Word W), Config.minWidth ≤ W →
    (opcodeOf ir).toInt = quot ir.toInt 100 ∧ (operandOf ir).toInt = rem ir.toInt 100 ∧
    -99 ≤ (operandOf ir).toInt ∧ (operandOf ir).toInt ≤ 99

/-- R76: the words no instruction decodes from are exactly those outside the listed ranges, and the rejection carries
the operation code. -/
def Obligations.IllegalWordsAreExactlyTheseRanges : Prop :=
  ∀ (W : Nat) (w : Word W), Config.minWidth ≤ W →
    (decode w = .error (.illegalOpcode (quot w.toInt 100)) ↔
      w.toInt < 1000 ∨ (1200 ≤ w.toInt ∧ w.toInt ≤ 1999) ∨ (2200 ≤ w.toInt ∧ w.toInt ≤ 2999) ∨
        (3400 ≤ w.toInt ∧ w.toInt ≤ 3999) ∨ 4400 ≤ w.toInt) ∧
    ((∃ e, decode w = .error e) ↔ quot w.toInt 100 ∉ Config.opcodes)

/-- R78: decode and encode agree, both ways: every well-formed instruction survives encoding and decoding, and every
word of a recognized code decodes to (w div 100, w mod 100) and is its instruction's word again. -/
def Obligations.DecodeEncodeRoundTrip : Prop :=
  ∀ W : Nat, Config.minWidth ≤ W →
    (∀ i : Instr, i.wellFormed = true → decode (encode i : Word W) = .ok i) ∧
    (∀ (w : Word W) (i : Instr), decode w = .ok i →
      i.wellFormed = true ∧ i.opcode = quot w.toInt 100 ∧ (i.operand : Int) = rem w.toInt 100 ∧ encode i = w) ∧
    (∀ w : Word W, quot w.toInt 100 ∈ Config.opcodes → ∃ i, decode w = .ok i)

/-! ### The instructions: encoding, effect, and completion for every state -/

/-- READ (R122): the words 10aa; with an empty queue no step (R107); else the oldest input, always in the data range if
the queue is, is stored at the operand and nothing else of memory changes. -/
def Obligations.ReadStoresTheOldestInput : Prop :=
  ∀ aa : Nat, aa ≤ 99 →
    (∀ (W : Nat) (s : State W), Config.minWidth ≤ W →
      decode (wrap (1000 + aa) : Word W) = .ok (.read aa) ∧
      (s.rtQueue = [] → execute (.read aa) s = .fault .waitingForRuntimeInput) ∧
      (∀ v q, s.rtQueue = v :: q →
        execute (.read aa) s = .next { s with mem := memSet s.mem aa (wrap v), rtQueue := q, ic := s.ic + 1 } ∧
        (s.mem.wf = true →
          ∀ b, memGet (memSet s.mem aa (wrap v)) b = if (b : Int) = dataAddress aa then wrap v else memGet s.mem b) ∧
        (acceptsRuntime v = true → (wrap v : Word W).toInt = v))) ∧
    ∀ s : State,
      (s.rtQueue = [] → exec (.read aa) s = .fault .waitingForRuntimeInput) ∧
      (∀ v q, s.rtQueue = v :: q →
        exec (.read aa) s = .next { s with mem := memSet s.mem aa (wrap v), rtQueue := q, ic := s.ic + 1 })

/-- WRITE (R123): the words 11aa; the word at the operand is appended to the output trace, whole. -/
def Obligations.WriteEmitsTheWord : Prop :=
  ∀ aa : Nat, aa ≤ 99 →
    (∀ (W : Nat) (s : State W), Config.minWidth ≤ W →
      decode (wrap (1100 + aa) : Word W) = .ok (.write aa) ∧
      execute (.write aa) s = .next { s with outTrace := s.outTrace ++ [memGet s.mem aa], ic := s.ic + 1 }) ∧
    ∀ s : State,
      exec (.write aa) s = .next { s with outTrace := s.outTrace ++ [memGet s.mem aa], ic := s.ic + 1 }

/-- LOAD (R130): the words 20aa; the word at the operand goes to `ACC`. -/
def Obligations.LoadCopiesTheWord : Prop :=
  ∀ aa : Nat, aa ≤ 99 →
    (∀ (W : Nat) (s : State W), Config.minWidth ≤ W →
      decode (wrap (2000 + aa) : Word W) = .ok (.load aa) ∧
      execute (.load aa) s = .next { s with acc := memGet s.mem aa, ic := s.ic + 1 }) ∧
    ∀ s : State,
      exec (.load aa) s = .next { s with acc := memGet s.mem aa, ic := s.ic + 1 }

/-- STORE (R131): the words 21aa; `ACC` is stored at the operand, unclamped, and nothing else of memory changes. -/
def Obligations.StoreCopiesTheAccumulator : Prop :=
  ∀ aa : Nat, aa ≤ 99 →
    (∀ (W : Nat) (s : State W), Config.minWidth ≤ W →
      decode (wrap (2100 + aa) : Word W) = .ok (.store aa) ∧
      execute (.store aa) s = .next { s with mem := memSet s.mem aa s.acc, ic := s.ic + 1 } ∧
      (s.mem.wf = true →
        ∀ b, memGet (memSet s.mem aa s.acc) b = if (b : Int) = dataAddress aa then s.acc else memGet s.mem b)) ∧
    ∀ s : State, exec (.store aa) s = .next { s with mem := memSet s.mem aa s.acc, ic := s.ic + 1 }

/-- ADD (R150): the words 30aa; `ACC <- wrap_W(ACC + M[OPD])`. -/
def Obligations.AddWrapsTheSum : Prop :=
  ∀ aa : Nat, aa ≤ 99 →
    (∀ (W : Nat) (s : State W), Config.minWidth ≤ W →
      decode (wrap (3000 + aa) : Word W) = .ok (.add aa) ∧
      execute (.add aa) s = .next { s with acc := wrap (s.acc.toInt + (memGet s.mem aa).toInt), ic := s.ic + 1 }) ∧
    ∀ s : State,
      exec (.add aa) s = .next { s with acc := wrap (s.acc.toInt + (memGet s.mem aa).toInt), ic := s.ic + 1 }

/-- SUBTRACT (R151): the words 31aa; `ACC <- wrap_W(ACC - M[OPD])`, not the reverse. -/
def Obligations.SubtractWrapsTheDifference : Prop :=
  ∀ aa : Nat, aa ≤ 99 →
    (∀ (W : Nat) (s : State W), Config.minWidth ≤ W →
      decode (wrap (3100 + aa) : Word W) = .ok (.subtract aa) ∧
      execute (.subtract aa) s = .next { s with acc := wrap (s.acc.toInt - (memGet s.mem aa).toInt), ic := s.ic + 1 }) ∧
    ∀ s : State,
      exec (.subtract aa) s = .next { s with acc := wrap (s.acc.toInt - (memGet s.mem aa).toInt), ic := s.ic + 1 }

/-- DIVIDE (R152, R146): the words 32aa; `ACC <- wrap_W(quot(ACC, M[OPD]))`; the divisor 0 stops the engine with
DivideByZero, whatever `ACC` is, and writes nothing else. The unchanged `IC` is decision D5 (log 10). -/
def Obligations.DivideTruncatesOrStops : Prop :=
  ∀ aa : Nat, aa ≤ 99 →
    (∀ (W : Nat) (s : State W), Config.minWidth ≤ W →
      decode (wrap (3200 + aa) : Word W) = .ok (.divide aa) ∧
      (memGet s.mem aa ≠ 0 →
        execute (.divide aa) s =
          .next { s with acc := wrap (quot s.acc.toInt (memGet s.mem aa).toInt), ic := s.ic + 1 }) ∧
      (memGet s.mem aa = 0 →
        execute (.divide aa) s = .next { s with runState := .faulted, stop := ⟨.divideByZero, s.ic.toNat, s.ir⟩ })) ∧
    ∀ s : State,
      (memGet s.mem aa ≠ 0 →
        exec (.divide aa) s =
          .next { s with acc := wrap (quot s.acc.toInt (memGet s.mem aa).toInt), ic := s.ic + 1 }) ∧
      (memGet s.mem aa = 0 →
        exec (.divide aa) s = .next { s with runState := .faulted, stop := ⟨.divideByZero, s.ic.toNat, s.ir⟩ })

/-- MULTIPLY (R153): the words 33aa; `ACC <- wrap_W(ACC * M[OPD])`. -/
def Obligations.MultiplyWrapsTheProduct : Prop :=
  ∀ aa : Nat, aa ≤ 99 →
    (∀ (W : Nat) (s : State W), Config.minWidth ≤ W →
      decode (wrap (3300 + aa) : Word W) = .ok (.multiply aa) ∧
      execute (.multiply aa) s = .next { s with acc := wrap (s.acc.toInt * (memGet s.mem aa).toInt), ic := s.ic + 1 }) ∧
    ∀ s : State,
      exec (.multiply aa) s = .next { s with acc := wrap (s.acc.toInt * (memGet s.mem aa).toInt), ic := s.ic + 1 }

/-- BRANCH (R160): the words 40aa; `IC` becomes the operand and nothing else changes. -/
def Obligations.BranchReplacesTheCounter : Prop :=
  ∀ aa : Nat, aa ≤ 99 →
    (∀ (W : Nat) (s : State W), Config.minWidth ≤ W →
      decode (wrap (4000 + aa) : Word W) = .ok (.branch aa) ∧
      execute (.branch aa) s = .next { s with ic := BitVec.ofNat 7 aa }) ∧
    (∀ s : State, exec (.branch aa) s = .next { s with ic := BitVec.ofNat 7 aa }) ∧
    (BitVec.ofNat 7 aa).toNat = aa

/-- BRANCHNEG (R161): the words 41aa; taken exactly when `ACC < 0`, else the counter advances by 1. -/
def Obligations.BranchnegTestsForNegative : Prop :=
  ∀ aa : Nat, aa ≤ 99 →
    (∀ (W : Nat) (s : State W), Config.minWidth ≤ W →
      decode (wrap (4100 + aa) : Word W) = .ok (.branchneg aa) ∧
      (s.acc.toInt < 0 → execute (.branchneg aa) s = .next { s with ic := BitVec.ofNat 7 aa }) ∧
      (0 ≤ s.acc.toInt → execute (.branchneg aa) s = .next { s with ic := s.ic + 1 })) ∧
    (∀ s : State,
      (s.acc.toInt < 0 → exec (.branchneg aa) s = .next { s with ic := BitVec.ofNat 7 aa }) ∧
      (0 ≤ s.acc.toInt → exec (.branchneg aa) s = .next { s with ic := s.ic + 1 })) ∧
    (BitVec.ofNat 7 aa).toNat = aa

/-- BRANCHZERO (R162): the words 42aa; taken exactly when `ACC = 0`, else the counter advances by 1. -/
def Obligations.BranchzeroTestsForZero : Prop :=
  ∀ aa : Nat, aa ≤ 99 →
    (∀ (W : Nat) (s : State W), Config.minWidth ≤ W →
      decode (wrap (4200 + aa) : Word W) = .ok (.branchzero aa) ∧
      (s.acc = 0 → execute (.branchzero aa) s = .next { s with ic := BitVec.ofNat 7 aa }) ∧
      (s.acc ≠ 0 → execute (.branchzero aa) s = .next { s with ic := s.ic + 1 })) ∧
    (∀ s : State,
      (s.acc = 0 → exec (.branchzero aa) s = .next { s with ic := BitVec.ofNat 7 aa }) ∧
      (s.acc ≠ 0 → exec (.branchzero aa) s = .next { s with ic := s.ic + 1 })) ∧
    (BitVec.ofNat 7 aa).toNat = aa

/-- HALT (R170): the words 43aa, whatever the operand; `STATE` becomes HALTED, `STOP` records address and word, the
counter advances, and no further step is taken. -/
def Obligations.HaltStopsTheEngine : Prop :=
  ∀ aa : Nat, aa ≤ 99 →
    (∀ (W : Nat) (s : State W), Config.minWidth ≤ W →
      decode (wrap (4300 + aa) : Word W) = .ok (.halt aa) ∧
      ∃ t, execute (.halt aa) s = .next t ∧
        t = { s with runState := .halted, stop := ⟨.halt, s.ic.toNat, s.ir⟩, ic := s.ic + 1 } ∧
        ∀ limit, transaction limit t = .fault .stopped) ∧
    ∀ s : State,
      ∃ t, exec (.halt aa) s = .next t ∧
        t = { s with runState := .halted, stop := ⟨.halt, s.ic.toNat, s.ir⟩, ic := s.ic + 1 } ∧
        ∀ limit, transaction limit t = .fault .stopped

/-- R206: an overflowing result wraps and the engine goes on, with no cause recorded: ADD, SUBTRACT, MULTIPLY, and DIVIDE
by a divisor other than 0. -/
def Obligations.OverflowWrapsAndTheEngineContinues : Prop :=
  ∀ (W aa : Nat) (s : State W), aa ≤ 99 →
    ∀ (i : Instr) (exact : Int),
      (i, exact) ∈ [(Instr.add aa, s.acc.toInt + (memGet s.mem aa).toInt),
        (Instr.subtract aa, s.acc.toInt - (memGet s.mem aa).toInt),
        (Instr.multiply aa, s.acc.toInt * (memGet s.mem aa).toInt)] ∨
      (i = Instr.divide aa ∧ memGet s.mem aa ≠ 0 ∧ exact = quot s.acc.toInt (memGet s.mem aa).toInt) →
      ∃ t, execute i s = .next t ∧ t.runState = s.runState ∧ t.stop = s.stop ∧
        (2 : Int) ^ W ∣ t.acc.toInt - exact

/-- R164: the conditional branches read `ACC` as it is at the start and read no memory. -/
def Obligations.ConditionalBranchesReadOnlyTheAccumulator : Prop :=
  ∀ (W aa : Nat) (s t : State W) (i : Instr), aa ≤ 99 → (i = .branchneg aa ∨ i = .branchzero aa) →
    execute i s = .next t →
    (∀ m, execute i { s with mem := m } = .next { t with mem := m }) ∧
    (i = .branchneg aa → t.ic = if s.acc.toInt < 0 then BitVec.ofNat 7 aa else s.ic + 1) ∧
    (i = .branchzero aa → t.ic = if s.acc.toInt = 0 then BitVec.ofNat 7 aa else s.ic + 1)

/-- R52, R204: an instruction term whose operand is no address raises AddressFault with that address, before any effect;
no word encodes such a term (log 17). -/
def Obligations.OperandOutsideMemoryRaisesAddressFault : Prop :=
  ∀ (W aa : Nat) (s : State W) (i : Instr), 100 ≤ aa →
    i ∈ [Instr.write aa, Instr.load aa, Instr.store aa, Instr.add aa, Instr.subtract aa, Instr.divide aa,
      Instr.multiply aa] ∨ (i = Instr.read aa ∧ s.rtQueue ≠ []) →
    execute i s = .next { s with runState := .faulted, stop := ⟨.addressFault, aa, s.ir⟩ }

/-! ### Frames and the rules about who writes what -/

/-- The frame of the storing instructions READ and STORE: only the word at the data address, the counter and, for READ,
the head of the input queue change. -/
def Obligations.StoringInstructionsFrame : Prop :=
  ∀ (W aa : Nat) (s t : State W) (i : Instr), aa ≤ 99 → (i = .read aa ∨ i = .store aa) → s.mem.wf = true →
    execute i s = .next t →
    (∀ b : Nat, (b : Int) ≠ dataAddress aa → memGet t.mem b = memGet s.mem b) ∧
    t.acc = s.acc ∧ t.ir = s.ir ∧ t.opc = s.opc ∧ t.opd = s.opd ∧ t.runState = s.runState ∧ t.stop = s.stop ∧
    t.outTrace = s.outTrace ∧ t.progIn = s.progIn ∧ t.loadAddr = s.loadAddr ∧
    (i = .store aa → t.rtQueue = s.rtQueue) ∧ (i = .read aa → t.rtQueue = s.rtQueue.tail)

/-- The frame of the other ten instructions: every word of memory, the queue, the loader's state and the decode
registers are unchanged; `ACC` changes only under LOAD and arithmetic, the output trace only under WRITE, the run state
and the stop record only under HALT and a division by zero. -/
def Obligations.NonStoringInstructionsFrame : Prop :=
  ∀ (W : Nat) (s t : State W) (i : Instr), i.wellFormed = true → (∀ aa, i ≠ .read aa ∧ i ≠ .store aa) →
    execute i s = .next t →
    (∀ b, memGet t.mem b = memGet s.mem b) ∧ t.rtQueue = s.rtQueue ∧ t.progIn = s.progIn ∧ t.loadAddr = s.loadAddr ∧
    t.ir = s.ir ∧ t.opc = s.opc ∧ t.opd = s.opd ∧
    ((∀ aa, i ≠ .load aa ∧ i ≠ .add aa ∧ i ≠ .subtract aa ∧ i ≠ .divide aa ∧ i ≠ .multiply aa) → t.acc = s.acc) ∧
    ((∀ aa, i ≠ .write aa) → t.outTrace = s.outTrace) ∧
    ((∀ aa, i ≠ .halt aa ∧ ¬ (i = .divide aa ∧ memGet s.mem aa = 0)) → t.runState = s.runState ∧ t.stop = s.stop) ∧
    (∀ aa, i = .divide aa → memGet s.mem aa = 0 → t.acc = s.acc ∧ t.ic = s.ic)

/-- R22: `ACC` is written by LOAD, ADD, SUBTRACT, DIVIDE and MULTIPLY and by nothing else, in every transaction of the
block; READ, WRITE, BRANCH and HALT do not read it, and LOAD does not either. -/
def Obligations.OnlyFiveInstructionsWriteTheAccumulator : Prop :=
  (∀ (W : Nat) limit (s t : State W), transaction limit s = .next t → t.acc ≠ s.acc →
    ∃ w i aa, Fetches limit s w ∧ decode w = .ok i ∧
      i ∈ [Instr.load aa, Instr.add aa, Instr.subtract aa, Instr.divide aa, Instr.multiply aa]) ∧
  (∀ (W aa : Nat) (s : State W) (a : Word W) (i : Instr),
    i ∈ [Instr.read aa, Instr.write aa, Instr.branch aa, Instr.halt aa] →
    execute i { s with acc := a } = mapNext (fun t => { t with acc := a }) (execute i s)) ∧
  (∀ (W aa : Nat) (s : State W) (a : Word W), aa ≤ 99 →
    execute (.load aa) { s with acc := a } = execute (.load aa) s)

/-- R53, R59: while the engine runs, a word of memory changes only because the instruction fetched is a READ or a STORE
of that very address. -/
def Obligations.OnlyReadAndStoreWriteMemory : Prop :=
  ∀ (W : Nat) limit (s t : State W) (b : Nat), Config.minWidth ≤ W → s.mem.wf = true → s.runState ≠ .idle →
    transaction limit s = .next t →
    memGet t.mem b ≠ memGet s.mem b →
    ∃ w, Fetches limit s w ∧ (decode w = .ok (.read b) ∨ decode w = .ok (.store b))

/-- R105: after a dispatch that does not raise, the counter advances by 1 for every code but the three branches, BRANCH
replaces it, the conditional branches advance it exactly when not taken; after a fatal condition it stays. The sum never
exceeds FETCH_LIMIT + 1. The unchanged `IC` after a fatal condition is decision D5 (log 10). -/
def Obligations.CounterAdvanceRule : Prop :=
  ∀ (W : Nat) limit (s t : State W) w i, Config.minWidth ≤ W → Fetches limit s w → decode w = .ok i →
    transaction limit s = .next t →
    (t.runState = .faulted → t.ic = s.ic) ∧
    (t.runState ≠ .faulted →
      match i with
      | .branch aa => t.ic.toNat = aa
      | .branchneg aa => t.ic.toNat = if s.acc.toInt < 0 then aa else s.ic.toNat + 1
      | .branchzero aa => t.ic.toNat = if s.acc.toInt = 0 then aa else s.ic.toNat + 1
      | .read _ | .write _ | .load _ | .store _ | .add _ | .subtract _ | .divide _ | .multiply _ | .halt _ =>
        t.ic.toNat = s.ic.toNat + 1) ∧
    s.ic.toNat + 1 ≤ limit.value + 1

/-! ### The step -/

/-- R100, R102, R103, R104: where the word at `IC` decodes to an instruction, a step is that instruction's meaning on the
state after the fetch and decode writes, and nothing else: `execute` at every width and limit, `exec` under `step`. R4, R5:
`exec` is `execute` at the default width, and `core` the machine with both defaults. -/
def Obligations.StepRunsTheDecodedInstruction : Prop :=
  (∀ (W : Nat) limit (s : State W) w i, s.runState = .running → s.ic.toNat ≤ limit.value →
    memGet s.mem s.ic.toNat = w →
    decode w = .ok i →
    transaction limit s = execute i { s with ir := w, opc := opcodeOf w, opd := operandOf w }) ∧
  (∀ (s : State) w i, s.runState = .running → s.ic.toNat ≤ 98 → memGet s.mem s.ic.toNat = w → decode w = .ok i →
    step s = exec i { s with ir := w, opc := opcodeOf w, opd := operandOf w }) ∧
  (∀ (i : Instr) (s : State), exec i s = execute i s) ∧ core = machine Config.W Config.fetchLimit

/-- R203, R104: a fetched word whose operation code is not recognized stops the engine with IllegalOpcode, its address
and word recorded, its decode in `IR`, `OPC`, `OPD`, everything else unchanged. The unchanged `IC` is decision D5
(log 10). -/
def Obligations.IllegalOpcodeStopsTheEngine : Prop :=
  ∀ (W : Nat) limit (s : State W) w, Config.minWidth ≤ W → Fetches limit s w → quot w.toInt 100 ∉ Config.opcodes →
    transaction limit s =
      .next { s with ir := w, opc := opcodeOf w, opd := operandOf w, runState := .faulted,
                     stop := ⟨.illegalOpcode, s.ic.toNat, w⟩ }

/-- R101, R207, R210: past the limit the engine stops softly, HALTED with cause RUNAWAY, fetching nothing, whatever memory
holds; every other value is unchanged. -/
def Obligations.RunawayIsASoftStop : Prop :=
  ∀ (W : Nat) limit (s : State W), s.runState = .running → limit.value < s.ic.toNat →
    transaction limit s = .next { s with runState := .halted, stop := ⟨.runaway, s.ic.toNat, s.ir⟩ }

/-- R107, decision D14 (log 5): the engine at a READ with an empty queue takes no step, and takes one as soon as the host
offers a value in [-9999, 9999]; a value outside leaves it waiting. -/
def Obligations.ReadWaitsForAnAcceptedInput : Prop :=
  ∀ (W : Nat) limit (s : State W), WaitsForInput limit s →
    transaction limit s = .fault .waitingForRuntimeInput ∧
    ∀ v, (acceptsRuntime v = true → ∃ t, transaction limit (hostEvent (.offerRuntime v) s) = .next t) ∧
      (acceptsRuntime v = false →
        transaction limit (hostEvent (.offerRuntime v) s) = .fault .waitingForRuntimeInput)

/-- R30, R65: in HALTED and FAULTED no step is enabled, and until reset no event of the host changes memory, the registers
or the run state. -/
def Obligations.StoppedStatesAreTerminal : Prop :=
  ∀ (W : Nat) (s : State W), (s.runState = .halted ∨ s.runState = .faulted) →
    (∀ limit, transaction limit s = .fault .stopped) ∧
    ∀ e, e ≠ .reset → (hostEvent e s).mem = s.mem ∧ (hostEvent e s).runState = s.runState ∧
      (hostEvent e s).stop = s.stop

/-- R30, R42, R100, R107: a step is taken exactly in IDLE with a value offered, and in RUNNING unless the engine waits at a
READ; no step is ever refused. Which values are offered and not consumed stands in `progIn` (log 6). -/
def Obligations.StepsAreTakenExactlyWhenEnabled : Prop :=
  ∀ (W : Nat) limit (s : State W),
    ((∃ t, transaction limit s = .next t) ↔
      (s.runState = .idle ∧ s.progIn ≠ []) ∨ (s.runState = .running ∧ ¬ WaitsForInput limit s)) ∧
    ∀ r, transaction limit s ≠ .refused r

/-- R209, R202, R203, R208: where a transaction writes a new stop cause, it is the one source the cause has; AddressFault
is never written, from any state whose loader address (log 7) is one the loader reaches (R204). -/
def Obligations.EachStopCauseHasItsOneSource : Prop :=
  ∀ (W : Nat) limit (s t : State W), Config.minWidth ≤ W → s.loadAddr ≤ 100 → s.stop.cause = .none →
    transaction limit s = .next t →
    match t.stop.cause with
    | .none => t.runState = .idle ∨ t.runState = .running
    | .halt => t.runState = .halted ∧ ∃ w aa, Fetches limit s w ∧ decode w = .ok (.halt aa)
    | .runaway => t.runState = .halted ∧ s.runState = .running ∧ limit.value < s.ic.toNat
    | .divideByZero =>
      t.runState = .faulted ∧ ∃ w aa, Fetches limit s w ∧ decode w = .ok (.divide aa) ∧ memGet s.mem aa = 0
    | .illegalOpcode =>
      t.runState = .faulted ∧ ∃ w, Fetches limit s w ∧ quot w.toInt 100 ∉ Config.opcodes
    | .addressFault => False
    | .loadOverflow => t.runState = .faulted ∧ s.runState = .idle ∧ s.loadAddr = 100

/-- R63, R260: a word stored by STORE or READ at the address of the next instruction is the word the next step fetches. -/
def Obligations.NextFetchSeesTheStore : Prop :=
  ∀ (W : Nat) limit (s t : State W) w (aa : Nat), s.mem.wf = true → Fetches limit s w →
    transaction limit s = .next t →
    aa = s.ic.toNat + 1 → aa ≤ limit.value →
    (decode w = .ok (.store aa) → Fetches limit t s.acc) ∧
    (∀ v q, decode w = .ok (.read aa) → s.rtQueue = v :: q → Fetches limit t (wrap v))

/-- R108, R160: a BRANCH to its own address runs for ever, any number of steps leaving `IC` where it is. -/
def Obligations.BranchToSelfRunsForEver : Prop :=
  ∀ (W n : Nat) limit (s : State W), Config.minWidth ≤ W → Fetches limit s (wrap (4000 + s.ic.toNat)) →
    (machine W limit).run (n + 1) s = .next { s with ir := wrap (4000 + s.ic.toNat), opc := 40, opd := wrap s.ic.toNat }

/-- R163, R101: a branch target above FETCH_LIMIT is legal, and the step after it stops the engine without fetching. -/
def Obligations.BranchAboveTheLimitRunsAway : Prop :=
  ∀ (W : Nat) limit (s : State W) w (aa : Nat), Config.minWidth ≤ W → Fetches limit s w →
    decode w = .ok (.branch aa) → limit.value < aa →
    ∃ t, transaction limit s = .next t ∧ t.runState = .running ∧ t.ic.toNat = aa ∧
      transaction limit t = .next { t with runState := .halted, stop := ⟨.runaway, aa, w⟩ }

/-- R109: the engine's step depends on nothing but registers, memory and the input queue: an earlier output trace, the
values pending on `prog_in` and the loader's address (the model's own fields, logs 6, 7) are carried along and change
nothing. -/
def Obligations.EngineReadsNeitherTraceNorLoader : Prop :=
  ∀ (W : Nat) limit (s : State W) out p n, s.runState = .running →
    transaction limit { s with outTrace := out ++ s.outTrace, progIn := p, loadAddr := n } =
      mapNext (fun t => { t with outTrace := out ++ t.outTrace, progIn := p, loadAddr := n }) (transaction limit s)

/-- R109: a value the host offers, on either port, before a step that is taken and the same value offered after it lead to
the same state: later inputs do not change an earlier step. R250 has offers on `prog_in` in IDLE only; that one made in
another state stays pending in `progIn` is the model's choice (log 6). -/
def Obligations.OffersCommuteWithSteps : Prop :=
  ∀ (W : Nat) limit (s t : State W) e, e ≠ .reset → transaction limit s = .next t →
    transaction limit (hostEvent e s) = .next (hostEvent e t)

/-- R100 and the pseudocode of R122 to R170: the engine of the machine does what the spec's pseudocode does over the
integers, and takes no step exactly where the pseudocode takes none. -/
def Obligations.EngineRefinesThePseudocode : Prop :=
  ∀ (W : Nat) limit (s : State W), Config.minWidth ≤ W → s.runState = .running → s.mem.wf = true →
    (∀ v ∈ s.rtQueue, acceptsRuntime v = true) →
    Pseudocode.outcome (transaction limit s) = Pseudocode.engine W limit.value (Pseudocode.snapshot s)

/-! ### Memory, ports, status -/

/-- R52, decision D8: both memory primitives validate the address and, on an invalid one, give that address back and
change nothing; on a valid one they read and write the cell of that index (R64). -/
def Obligations.AddressValidation : Prop :=
  ∀ (W : Nat) (a : Int) (v : Word W) (s : State W),
    (0 ≤ a ∧ a ≤ 99 →
      memRead a s = .ok (memGet s.mem a.toNat) ∧ memWrite a v s = .ok { s with mem := memSet s.mem a.toNat v }) ∧
    (a < 0 ∨ 99 < a → memRead a s = .error a ∧ memWrite a v s = .error a)

/-- Log 4: two memories in canonical form that read alike at every address 0 to 99 are the same data, and each has an
entry for existing addresses only. -/
def Obligations.CanonicalMemoryIsDeterminedByItsWords : Prop :=
  ∀ (W : Nat) (m m' : Memory W), m.wf = true → m'.wf = true →
    ((∀ a, a ≤ 99 → memGet m a = memGet m' a) → m = m') ∧ (∀ a, 99 < a → memGet m a = 0)

/-- R120, R44, decision D14 (log 11): an accepted value offered on `rt_in`, in any state, joins the queue behind the older
ones, and nothing else changes. -/
def Obligations.RuntimePortQueuesInOrder : Prop :=
  ∀ (W : Nat) (v : Int) (s : State W), -9999 ≤ v → v ≤ 9999 →
    hostEvent (.offerRuntime v) s = { s with rtQueue := s.rtQueue ++ [v] }

/-- R205: malformed input is no exception: it is discarded, at the port or at the loader, and no architectural state
changes. The loader's clause speaks of `progIn`, the model's own field (log 6, DESIGN CHOICE), of which a step consumes
one value (log 18, DEDUCED). -/
def Obligations.MalformedInputIsDiscarded : Prop :=
  ∀ (W : Nat) (v : Int) (s : State W),
    ((v < -9999 ∨ 9999 < v) → hostEvent (.offerRuntime v) s = s) ∧
    (∀ limit rest, s.runState = .idle → s.progIn = v :: rest → acceptsProgramWord v = false →
      transaction limit s = .next { s with progIn := rest })

/-- R59, R33, R250: the host writes no memory and no register but by reset, and outside IDLE the machine's step does not
read what is offered on `prog_in` (R42), which stays pending in `progIn` (log 6). -/
def Obligations.HostCannotWriteMemoryOrRegisters : Prop :=
  (∀ (W : Nat) (s : State W) (e : HostEvent), e ≠ .reset →
    (∀ b, memGet (hostEvent e s).mem b = memGet s.mem b) ∧ status (hostEvent e s) = status s ∧
    output (hostEvent e s) = output s) ∧
  (∀ (W : Nat) limit (s : State W) p, s.runState ≠ .idle →
    transaction limit { s with progIn := p } = mapNext (fun t => { t with progIn := p }) (transaction limit s))

/-- R46: `status` presents the run state, the stop record, the five registers and the 100 memory words, in any state. -/
def Obligations.StatusPresentsTheState : Prop :=
  ∀ (W : Nat) (s : State W),
    (status s).runState = s.runState ∧ (status s).stop = s.stop ∧ (status s).acc = s.acc ∧ (status s).ic = s.ic ∧
    (status s).ir = s.ir ∧ (status s).opc = s.opc ∧ (status s).opd = s.opd ∧ (status s).memory.length = 100 ∧
    ∀ a, a ≤ 99 → (status s).memory[a]? = some (memGet s.mem a)

/-- R244, R65, decision D24: the final report is there after every kind of stop and not before one, and shows the status
and the output trace of the state the machine stopped in, whatever the host does short of a reset. -/
def Obligations.FinalReportStaysUntilReset : Prop :=
  ∀ (W : Nat) (s : State W) (events : List HostEvent), .reset ∉ events →
    (finalReport s = none ↔ s.runState = .idle ∨ s.runState = .running) ∧
    (s.runState = .halted ∨ s.runState = .faulted →
      finalReport (events.foldl (fun t e => hostEvent e t) s) = some (status s, output s))

/-- R209, decision D6: the codes of the stop causes are 0 to 6, one each. -/
def Obligations.StopCodesAreDistinct : Prop :=
  [StopCause.none, .halt, .runaway, .divideByZero, .illegalOpcode, .addressFault, .loadOverflow].map StopCause.code =
    [0, 1, 2, 3, 4, 5, 6] ∧
  ∀ c d : StopCause, c.code = d.code → c = d

/-! ### Reset and the loader -/

/-- R35, R230, R231: reset, accepted in every state, gives every piece of state its reset value: zero registers, zero
memory, IDLE, no stop, empty queues, at every width. The model's own fields `progIn` (log 6) and `loadAddr` (log 7) are empty and 0. -/
def Obligations.ResetGivesTheResetValues : Prop :=
  State.reset = State.resetAt Config.W ∧
  ∀ (W : Nat) (s : State W),
    ∃ t, hostEvent .reset s = t ∧ t = State.resetAt W ∧ t.acc = 0 ∧ t.ic = 0 ∧ t.ir = 0 ∧ t.opc = 0 ∧ t.opd = 0 ∧
      (∀ a, a ≤ 99 → memGet t.mem a = 0) ∧ t.runState = .idle ∧ t.stop = ⟨.none, 0, 0⟩ ∧ t.rtQueue = [] ∧
      t.outTrace = [] ∧ t.progIn = [] ∧ t.loadAddr = 0

/-- R240, decision D12 (log 12): the validator accepts exactly the two sentinels and the words of the listed ranges. -/
def Obligations.ValidatorAcceptsExactlyTheseValues : Prop :=
  ∀ v : Int, acceptsProgramWord v = true ↔
    v = -99999 ∨ v = -88888 ∨ (1000 ≤ v ∧ v ≤ 1199) ∨ (2000 ≤ v ∧ v ≤ 2199) ∨ (3000 ≤ v ∧ v ≤ 3399) ∨
      (4000 ≤ v ∧ v ≤ 4399)

/-- R241, R243, decision D10 (log 14): from reset, the values offered and then -99999 load exactly the accepted ones, from
address 0 up, the rest of memory 0, and start the run with the registers at their reset values; what is offered after
the sentinel is not consumed. The final `progIn` and `loadAddr` are the model's own fields (logs 6, 7), one value a step
(log 18). -/
def Obligations.LoaderLoadsTheAcceptedWords : Prop :=
  ∀ (W : Nat) limit (offered later q : List Int), LoadableProgram (offered.filter acceptsProgramWord) →
    (machine W limit).run (offered.length + 1)
        { State.resetAt W with progIn := offered ++ Config.stopSentinel :: later, rtQueue := q } =
      .next { State.resetAt W with
        runState := .running, mem := image (offered.filter acceptsProgramWord), progIn := later, rtQueue := q,
        loadAddr := (offered.filter acceptsProgramWord).length } ∧
    ∀ a, a ≤ 99 →
      memGet (image (offered.filter acceptsProgramWord) : Memory W) a = wrap ((offered.filter acceptsProgramWord).getD a 0)

/-- R242, R208, decision D9 (log 13): after 100 stored words, rejected values among those offered or not, a further accepted
value other than -99999 ends the load in FAULTED, with memory holding the 100 words. The final `progIn` and `loadAddr`
are the model's own fields (logs 6, 7), one value a step (log 18). -/
def Obligations.HundredAndFirstWordOverflowsTheLoader : Prop :=
  ∀ (W : Nat) limit (offered later q : List Int) (v : Int), LoadableProgram (offered.filter acceptsProgramWord) →
    (offered.filter acceptsProgramWord).length = 100 → acceptsProgramWord v = true → v ≠ Config.stopSentinel →
    (machine W limit).run (offered.length + 1) { State.resetAt W with progIn := offered ++ v :: later, rtQueue := q } =
      .next { State.resetAt W with
        runState := .faulted, stop := ⟨.loadOverflow, 100, wrap v⟩,
        mem := image (offered.filter acceptsProgramWord), progIn := later, rtQueue := q, loadAddr := 100 }

/-- R241, decision D11 (log 3): -88888 as the first value loads DEMO_PROGRAM, whatever it is, from address 0 up, the rest
0, and starts the run; nothing further is consumed. That the whole program is copied in ONE step is log 18 (DEDUCED); the
final `progIn` and `loadAddr` are the model's own fields (logs 6, 7). -/
def Obligations.DemonstrationPathLoadsTheDemoProgram : Prop :=
  ∀ W : Nat,
  (∀ limit (later q : List Int),
    (machine W limit).run 1 { State.resetAt W with progIn := Config.demoSentinel :: later, rtQueue := q } =
      .next { State.resetAt W with
        runState := .running, mem := storeWords 0 (Config.demoProgram W) [], progIn := later, rtQueue := q }) ∧
  (Config.demoProgram W).length ≤ 100 ∧
  ∀ a, a ≤ 99 → memGet (storeWords 0 (Config.demoProgram W) []) a = (Config.demoProgram W).getD a 0

/-- R243, R231: in IDLE the next value -99999, or -88888 as the first accepted value, completes the load: `STATE` becomes
RUNNING with `IC`, `ACC`, `IR`, `OPC` and `OPD` 0, and the next transaction is the engine's. Nothing else leaves IDLE for
RUNNING, and loading never comes back without a reset. That the value is the head of `progIn` is log 6, that `loadAddr`
is 0 for the first accepted value log 7, that the demonstration path completes in one step log 18. -/
def Obligations.CompletedLoadStartsTheEngine : Prop :=
  (∀ (W : Nat) limit (s : State W) v rest, Inv limit s → s.runState = .idle → s.progIn = v :: rest →
    CompletesLoad v s →
    ∃ t, transaction limit s = .next t ∧ t.runState = .running ∧ t.ic = 0 ∧ t.acc = 0 ∧ t.ir = 0 ∧ t.opc = 0 ∧
      t.opd = 0 ∧ transaction limit t = engineStep limit t) ∧
  (∀ (W : Nat) limit (s t : State W), Inv limit s → s.runState = .idle → transaction limit s = .next t →
    t.runState = .running →
    ∃ v rest, s.progIn = v :: rest ∧ CompletesLoad v s) ∧
  (∀ (W : Nat) limit (s t : State W), s.runState ≠ .idle → transaction limit s = .next t → t.runState ≠ .idle)

/-- R245: the step by which any state that meets the invariant, reachable or not, leaves IDLE for RUNNING leads to a launch
state: registers at reset and memory holding DEMO_PROGRAM or a loadable program. Decisions D10, D12 (logs 14, 12). -/
def Obligations.RunsStartInLaunchStates : Prop :=
  ∀ (W : Nat) limit (s t : State W), Inv limit s → s.runState = .idle → transaction limit s = .next t →
    t.runState = .running →
    LaunchState t

/-! ### The invariant -/

/-- The invariant holds after reset. -/
def Obligations.InvariantHoldsAtReset : Prop :=
  ∀ (W : Nat) limit, Inv limit (State.resetAt W)

/-- Every step keeps the invariant: canonical memory, inputs in range, the counter at most FETCH_LIMIT + 1, `OPC` and
`OPD` the decode of `IR`, the loader's state, and a true stop record; for both fetch limits, and for `step`. -/
def Obligations.StepKeepsTheInvariant : Prop :=
  (∀ (W : Nat) limit (s t : State W), Config.minWidth ≤ W → Inv limit s → transaction limit s = .next t →
    Inv limit t) ∧
  (∀ s t : State, Inv Config.fetchLimit s → step s = .next t → Inv Config.fetchLimit t)

/-- Every event of the host keeps the invariant. -/
def Obligations.HostEventsKeepTheInvariant : Prop :=
  ∀ (W : Nat) limit (s : State W) e, Inv limit s → Inv limit (hostEvent e s)

/-- The invariant holds of every state the machine and its host can reach; so `IC` never wraps (R26), AddressFault is never
recorded (R204), and the queue and the stop record are as R34 and R31 say. -/
def Obligations.ReachableStatesMeetTheInvariant : Prop :=
  ∀ (W : Nat) limit (s : State W), Config.minWidth ≤ W → Reachable limit s →
    Inv limit s ∧ s.ic.toNat ≤ 100 ∧ s.stop.cause ≠ .addressFault
end

