-- ==== Sys2Proof/Laws/Decode.lean ====
section
/-! SUPPORT. The laws of `wrap`, `quot` and `rem`, and what `select` can answer. -/

namespace Sys2Proof

theorem toInt_wrap {w : Nat} (v : Int) : (wrap v : BitVec w).toInt = v.bmod (2 ^ w) := by
  simp [wrap]

/-- A value a word can hold is the integer of its word. -/
theorem toInt_wrap_of_fits {W : Nat} (hW : 0 < W) {v : Int} (h1 : -(2 : Int) ^ (W - 1) ≤ v) (h2 : v < 2 ^ (W - 1)) :
    (wrap v : Word W).toInt = v := by
  obtain ⟨n, rfl⟩ : ∃ n, W = n + 1 := ⟨W - 1, by omega⟩
  have hp : ((2 ^ (n + 1) : Nat) : Int) = 2 * 2 ^ n := by
    push_cast
    ring
  rw [Nat.add_sub_cancel] at h1 h2
  rw [toInt_wrap]
  apply Int.bmod_eq_of_le <;> rw [hp] <;> omega

/-- Every width a model may have holds the values of 18 bits (R4). -/
theorem minWidth_pow {W : Nat} (hW : Config.minWidth ≤ W) : (131072 : Int) ≤ 2 ^ (W - 1) := by
  have h : (2 : Int) ^ 17 ≤ 2 ^ (W - 1) := pow_le_pow_right₀ (by norm_num) (Nat.le_sub_one_of_lt hW)
  norm_num at h
  exact h

/-- A value of 18 bits is the integer of its word, at every width a model may have. -/
theorem toInt_wrap_of_bounds {W : Nat} (hW : Config.minWidth ≤ W) {v : Int} (h1 : -131072 ≤ v) (h2 : v ≤ 131071) :
    (wrap v : Word W).toInt = v := by
  have := minWidth_pow hW
  exact toInt_wrap_of_fits (Nat.lt_of_lt_of_le (by decide) hW) (by omega) (by omega)

@[simp] theorem wrap_toInt {w : Nat} (x : BitVec w) : (wrap x.toInt : BitVec w) = x := by
  simp [wrap]

/-- `rem` is the truncating remainder. -/
theorem rem_eq_tmod (a b : Int) : rem a b = a.tmod b := by
  unfold rem quot
  have := Int.mul_tdiv_add_tmod a b
  omega

/-- A value and the quotient and remainder of its division by 100. -/
theorem quot_rem_100 (v : Int) :
    v = 100 * quot v 100 + rem v 100 ∧ -99 ≤ rem v 100 ∧ rem v 100 ≤ 99 ∧ (0 ≤ v → 0 ≤ rem v 100) ∧
      (v ≤ 0 → rem v 100 ≤ 0) := by
  have h := Int.mul_tdiv_add_tmod v 100
  have h1 : (v.tmod 100).natAbs < 100 := by
    rw [Int.natAbs_tmod]
    exact Nat.mod_lt _ (by omega)
  rw [rem_eq_tmod]
  refine ⟨by unfold quot; omega, by omega, by omega, fun h => Int.tmod_nonneg _ h, fun h => ?_⟩
  have := Int.tmod_nonneg (a := -v) 100 (by omega)
  rw [Int.neg_tmod] at this
  omega

/-- Dispatch answers no instruction for the other operation codes. -/
theorem select_of_not_mem {opc : Int} (h : opc ∉ Config.opcodes) (opd : Int) :
    select opc opd = .error (.illegalOpcode opc) := by
  simp only [Config.opcodes, List.mem_cons, List.not_mem_nil, or_false, not_or] at h
  simp [select, h]

/-- Dispatch answers an instruction for its own operation code. -/
theorem select_opcode (i : Instr) : select i.opcode i.operand = .ok i := by
  cases i <;> rfl

theorem opcode_mem (i : Instr) : i.opcode ∈ Config.opcodes := by
  cases i <;> simp [Instr.opcode, Config.opcodes]

/-- A recognized operation code gives the instruction of that code with that operand. -/
theorem select_of_mem {opc : Int} (h : opc ∈ Config.opcodes) (opd : Int) :
    ∃ i, select opc opd = .ok i ∧ i.opcode = opc ∧ i.operand = opd.toNat := by
  simp only [Config.opcodes, List.mem_cons, List.not_mem_nil, or_false] at h
  rcases h with h | h | h | h | h | h | h | h | h | h | h | h <;> subst h <;> exact ⟨_, rfl, rfl, rfl⟩

/-- An instruction has one operation code and one operand, and no other instruction has both. -/
theorem eq_of_opcode_operand {i j : Instr} (h1 : i.opcode = j.opcode) (h2 : i.operand = j.operand) : i = j := by
  have hi := select_opcode i
  rw [h1, h2, select_opcode j] at hi
  exact (Except.ok.inj hi).symm

/-- What dispatch answers, in both directions: an instruction exactly for its own operation code. -/
theorem select_ok_iff (opc opd : Int) (i : Instr) :
    select opc opd = .ok i ↔ i.opcode = opc ∧ i.operand = opd.toNat := by
  by_cases h : opc ∈ Config.opcodes
  · obtain ⟨j, hj, h1, h2⟩ := select_of_mem h opd
    rw [hj]
    constructor
    · rintro ⟨⟩
      exact ⟨h1, h2⟩
    · rintro ⟨h3, h4⟩
      rw [eq_of_opcode_operand (h1.trans h3.symm) (h2.trans h4.symm)]
  · rw [select_of_not_mem h]
    constructor
    · rintro ⟨⟩
    · rintro ⟨rfl, -⟩
      exact absurd (opcode_mem i) h

end Sys2Proof
end

