-- ==== Sys2Proof/Laws/Memory.lean ====
section
/-! SUPPORT. The laws of the memory array: read after write, and every operation keeps the canonical form. -/

namespace Sys2Proof.Machine

variable {W : Nat}

/-! ### The canonical form -/

@[simp] theorem wfFrom_nil (lo : Nat) : Memory.wfFrom (W := W) lo [] = true := rfl

theorem wfFrom_cons {lo b : Nat} {u : Word W} {m : Memory W} :
    Memory.wfFrom lo ((b, u) :: m) = true ↔ lo ≤ b ∧ b < 100 ∧ u ≠ 0 ∧ Memory.wfFrom (b + 1) m = true := by
  simp [Memory.wfFrom, and_assoc]

theorem wfFrom_mono {lo hi : Nat} {m : Memory W} (h : lo ≤ hi) (hm : Memory.wfFrom hi m = true) :
    Memory.wfFrom lo m = true := by
  cases m with
  | nil => rfl
  | cons c m =>
    obtain ⟨b, u⟩ := c
    rw [wfFrom_cons] at hm ⊢
    exact ⟨h.trans hm.1, hm.2⟩

/-- A canonical memory reads as 0 below its least address. -/
theorem memGet_below {lo a : Nat} {m : Memory W} (hm : Memory.wfFrom lo m = true) (ha : a < lo) : memGet m a = 0 := by
  induction m generalizing lo with
  | nil => rfl
  | cons c m ih =>
    obtain ⟨b, u⟩ := c
    obtain ⟨h1, -, -, h4⟩ := wfFrom_cons.1 hm
    rw [memGet, if_neg (by omega)]
    exact ih h4 (by omega)

theorem memCons_wfFrom {lo a : Nat} {v : Word W} {m : Memory W} (hlo : lo ≤ a) (ha : a < 100)
    (hm : Memory.wfFrom (a + 1) m = true) : Memory.wfFrom lo (memCons a v m) = true := by
  unfold memCons
  split
  · exact wfFrom_mono (by omega) hm
  · exact wfFrom_cons.2 ⟨hlo, ha, ‹_›, hm⟩

/-- Writing to an existing address keeps the canonical form. -/
theorem memSet_wfFrom {lo a : Nat} {v : Word W} {m : Memory W} (hlo : lo ≤ a) (ha : a < 100)
    (hm : Memory.wfFrom lo m = true) : Memory.wfFrom lo (memSet m a v) = true := by
  induction m generalizing lo with
  | nil => exact memCons_wfFrom hlo ha rfl
  | cons c m ih =>
    obtain ⟨b, u⟩ := c
    obtain ⟨h1, h2, h3, h4⟩ := wfFrom_cons.1 hm
    unfold memSet
    split
    · exact memCons_wfFrom hlo ha (wfFrom_cons.2 ⟨by omega, h2, h3, h4⟩)
    · split
      · exact memCons_wfFrom hlo ha (by subst ‹a = b›; exact h4)
      · exact wfFrom_cons.2 ⟨h1, h2, h3, ih (by omega) h4⟩

theorem memSet_wf {a : Nat} {v : Word W} {m : Memory W} (ha : a < 100) (hm : m.wf = true) : (memSet m a v).wf = true :=
  memSet_wfFrom (Nat.zero_le a) ha hm

theorem reset_mem_wf : (State.resetAt W).mem.wf = true := rfl

/-! ### Read after write -/

theorem memGet_memCons {lo a b : Nat} {v : Word W} {m : Memory W} (hm : Memory.wfFrom lo m = true) (ha : a < lo) :
    memGet (memCons a v m) b = if b = a then v else memGet m b := by
  unfold memCons
  split
  · split
    · simp_all [memGet_below hm ha]
    · rfl
  · rfl

theorem memGet_memSet_from {lo a : Nat} {v : Word W} {m : Memory W} (hm : Memory.wfFrom lo m = true) (b : Nat) :
    memGet (memSet m a v) b = if b = a then v else memGet m b := by
  induction m generalizing lo with
  | nil => exact memGet_memCons (lo := a + 1) rfl (by omega)
  | cons c m ih =>
    obtain ⟨b', u⟩ := c
    obtain ⟨h1, h2, h3, h4⟩ := wfFrom_cons.1 hm
    unfold memSet
    split
    · exact memGet_memCons (lo := b') (wfFrom_cons.2 ⟨le_rfl, h2, h3, h4⟩) ‹_›
    · split
      · subst ‹a = b'›
        rw [memGet_memCons h4 (by omega)]
        simp only [memGet]
        split <;> rfl
      · simp only [memGet, ih h4]
        split
        · rw [if_neg (by omega)]
        · rfl

/-- A read after a write: the value written at that address, the old word everywhere else. -/
theorem memGet_memSet {m : Memory W} (hm : m.wf = true) (a : Nat) (v : Word W) (b : Nat) :
    memGet (memSet m a v) b = if b = a then v else memGet m b :=
  memGet_memSet_from hm b

/-! ### Runs of words -/

theorem storeWords_wf {ws : List (Word W)} {a : Nat} {m : Memory W} (hm : m.wf = true) (ha : a + ws.length ≤ 100) :
    (storeWords a ws m).wf = true := by
  induction ws generalizing a m with
  | nil => exact hm
  | cons w ws ih =>
    simp only [List.length_cons] at ha
    exact ih (memSet_wf (by omega) hm) (by omega)

theorem storeWords_append (ws : List (Word W)) (w : Word W) (a : Nat) (m : Memory W) :
    storeWords a (ws ++ [w]) m = memSet (storeWords a ws m) (a + ws.length) w := by
  induction ws generalizing a m with
  | nil => rfl
  | cons x ws ih => simp [storeWords, ih, Nat.add_assoc, Nat.add_comm 1]

/-- Reading a run of stored words: the word of that position inside the run, the old word outside it. -/
theorem memGet_storeWords {ws : List (Word W)} {a : Nat} {m : Memory W} (hm : m.wf = true) (ha : a + ws.length ≤ 100) (b : Nat) :
    memGet (storeWords a ws m) b = if a ≤ b ∧ b < a + ws.length then ws.getD (b - a) 0 else memGet m b := by
  induction ws generalizing a m with
  | nil => rw [storeWords, if_neg (by simp)]
  | cons w ws ih =>
    simp only [List.length_cons] at ha
    rw [storeWords, ih (memSet_wf (by omega) hm) (by omega), memGet_memSet hm, List.length_cons]
    by_cases hb : b = a
    · subst hb
      rw [if_neg (by omega), if_pos rfl, if_pos (by omega)]
      simp
    · rw [if_neg hb]
      by_cases hc : a + 1 ≤ b ∧ b < a + 1 + ws.length
      · obtain ⟨k, rfl⟩ : ∃ k, b = a + 1 + k := ⟨b - (a + 1), by omega⟩
        rw [if_pos hc, if_pos (by omega), show a + 1 + k - (a + 1) = k by omega, show a + 1 + k - a = k + 1 by omega]
        simp
      · rw [if_neg hc, if_neg (by omega)]

end Sys2Proof.Machine
end

