-- ==== Sys2Proof/Laws/State.lean ====
section
/-! SUPPORT. What each update of the state does to each field, true by unfolding, so that no later proof unfolds a record
update; the ways of stopping are brought to `stopWith`. -/

namespace Sys2Proof.Machine

variable {W : Nat}

@[simp] theorem setAcc_acc (v : Word W) (s : State W) : (setAcc v s).acc = v := rfl
@[simp] theorem setAcc_ic (v : Word W) (s : State W) : (setAcc v s).ic = s.ic := rfl
@[simp] theorem setAcc_ir (v : Word W) (s : State W) : (setAcc v s).ir = s.ir := rfl
@[simp] theorem setAcc_opc (v : Word W) (s : State W) : (setAcc v s).opc = s.opc := rfl
@[simp] theorem setAcc_opd (v : Word W) (s : State W) : (setAcc v s).opd = s.opd := rfl
@[simp] theorem setAcc_runState (v : Word W) (s : State W) : (setAcc v s).runState = s.runState := rfl
@[simp] theorem setAcc_stop (v : Word W) (s : State W) : (setAcc v s).stop = s.stop := rfl
@[simp] theorem setAcc_mem (v : Word W) (s : State W) : (setAcc v s).mem = s.mem := rfl
@[simp] theorem setAcc_rtQueue (v : Word W) (s : State W) : (setAcc v s).rtQueue = s.rtQueue := rfl
@[simp] theorem setAcc_outTrace (v : Word W) (s : State W) : (setAcc v s).outTrace = s.outTrace := rfl
@[simp] theorem setAcc_progIn (v : Word W) (s : State W) : (setAcc v s).progIn = s.progIn := rfl
@[simp] theorem setAcc_loadAddr (v : Word W) (s : State W) : (setAcc v s).loadAddr = s.loadAddr := rfl

@[simp] theorem advance_acc (s : State W) : (advance s).acc = s.acc := rfl
@[simp] theorem advance_ic (s : State W) : (advance s).ic = s.ic + 1 := rfl
@[simp] theorem advance_ir (s : State W) : (advance s).ir = s.ir := rfl
@[simp] theorem advance_opc (s : State W) : (advance s).opc = s.opc := rfl
@[simp] theorem advance_opd (s : State W) : (advance s).opd = s.opd := rfl
@[simp] theorem advance_runState (s : State W) : (advance s).runState = s.runState := rfl
@[simp] theorem advance_stop (s : State W) : (advance s).stop = s.stop := rfl
@[simp] theorem advance_mem (s : State W) : (advance s).mem = s.mem := rfl
@[simp] theorem advance_rtQueue (s : State W) : (advance s).rtQueue = s.rtQueue := rfl
@[simp] theorem advance_outTrace (s : State W) : (advance s).outTrace = s.outTrace := rfl
@[simp] theorem advance_progIn (s : State W) : (advance s).progIn = s.progIn := rfl
@[simp] theorem advance_loadAddr (s : State W) : (advance s).loadAddr = s.loadAddr := rfl

@[simp] theorem jump_acc (a : Nat) (s : State W) : (jump a s).acc = s.acc := rfl
@[simp] theorem jump_ic (a : Nat) (s : State W) : (jump a s).ic = BitVec.ofNat 7 a := rfl
@[simp] theorem jump_ir (a : Nat) (s : State W) : (jump a s).ir = s.ir := rfl
@[simp] theorem jump_opc (a : Nat) (s : State W) : (jump a s).opc = s.opc := rfl
@[simp] theorem jump_opd (a : Nat) (s : State W) : (jump a s).opd = s.opd := rfl
@[simp] theorem jump_runState (a : Nat) (s : State W) : (jump a s).runState = s.runState := rfl
@[simp] theorem jump_stop (a : Nat) (s : State W) : (jump a s).stop = s.stop := rfl
@[simp] theorem jump_mem (a : Nat) (s : State W) : (jump a s).mem = s.mem := rfl
@[simp] theorem jump_rtQueue (a : Nat) (s : State W) : (jump a s).rtQueue = s.rtQueue := rfl
@[simp] theorem jump_outTrace (a : Nat) (s : State W) : (jump a s).outTrace = s.outTrace := rfl
@[simp] theorem jump_progIn (a : Nat) (s : State W) : (jump a s).progIn = s.progIn := rfl
@[simp] theorem jump_loadAddr (a : Nat) (s : State W) : (jump a s).loadAddr = s.loadAddr := rfl

@[simp] theorem fetchDecode_acc (w : Word W) (s : State W) : (fetchDecode w s).acc = s.acc := rfl
@[simp] theorem fetchDecode_ic (w : Word W) (s : State W) : (fetchDecode w s).ic = s.ic := rfl
@[simp] theorem fetchDecode_ir (w : Word W) (s : State W) : (fetchDecode w s).ir = w := rfl
@[simp] theorem fetchDecode_opc (w : Word W) (s : State W) : (fetchDecode w s).opc = opcodeOf w := rfl
@[simp] theorem fetchDecode_opd (w : Word W) (s : State W) : (fetchDecode w s).opd = operandOf w := rfl
@[simp] theorem fetchDecode_runState (w : Word W) (s : State W) : (fetchDecode w s).runState = s.runState := rfl
@[simp] theorem fetchDecode_stop (w : Word W) (s : State W) : (fetchDecode w s).stop = s.stop := rfl
@[simp] theorem fetchDecode_mem (w : Word W) (s : State W) : (fetchDecode w s).mem = s.mem := rfl
@[simp] theorem fetchDecode_rtQueue (w : Word W) (s : State W) : (fetchDecode w s).rtQueue = s.rtQueue := rfl
@[simp] theorem fetchDecode_outTrace (w : Word W) (s : State W) : (fetchDecode w s).outTrace = s.outTrace := rfl
@[simp] theorem fetchDecode_progIn (w : Word W) (s : State W) : (fetchDecode w s).progIn = s.progIn := rfl
@[simp] theorem fetchDecode_loadAddr (w : Word W) (s : State W) : (fetchDecode w s).loadAddr = s.loadAddr := rfl

@[simp] theorem outPut_acc (v : Word W) (s : State W) : (outPut v s).acc = s.acc := rfl
@[simp] theorem outPut_ic (v : Word W) (s : State W) : (outPut v s).ic = s.ic := rfl
@[simp] theorem outPut_ir (v : Word W) (s : State W) : (outPut v s).ir = s.ir := rfl
@[simp] theorem outPut_opc (v : Word W) (s : State W) : (outPut v s).opc = s.opc := rfl
@[simp] theorem outPut_opd (v : Word W) (s : State W) : (outPut v s).opd = s.opd := rfl
@[simp] theorem outPut_runState (v : Word W) (s : State W) : (outPut v s).runState = s.runState := rfl
@[simp] theorem outPut_stop (v : Word W) (s : State W) : (outPut v s).stop = s.stop := rfl
@[simp] theorem outPut_mem (v : Word W) (s : State W) : (outPut v s).mem = s.mem := rfl
@[simp] theorem outPut_rtQueue (v : Word W) (s : State W) : (outPut v s).rtQueue = s.rtQueue := rfl
@[simp] theorem outPut_outTrace (v : Word W) (s : State W) : (outPut v s).outTrace = s.outTrace ++ [v] := rfl
@[simp] theorem outPut_progIn (v : Word W) (s : State W) : (outPut v s).progIn = s.progIn := rfl
@[simp] theorem outPut_loadAddr (v : Word W) (s : State W) : (outPut v s).loadAddr = s.loadAddr := rfl

@[simp] theorem dropInput_acc (s : State W) : (dropInput s).acc = s.acc := rfl
@[simp] theorem dropInput_ic (s : State W) : (dropInput s).ic = s.ic := rfl
@[simp] theorem dropInput_ir (s : State W) : (dropInput s).ir = s.ir := rfl
@[simp] theorem dropInput_opc (s : State W) : (dropInput s).opc = s.opc := rfl
@[simp] theorem dropInput_opd (s : State W) : (dropInput s).opd = s.opd := rfl
@[simp] theorem dropInput_runState (s : State W) : (dropInput s).runState = s.runState := rfl
@[simp] theorem dropInput_stop (s : State W) : (dropInput s).stop = s.stop := rfl
@[simp] theorem dropInput_mem (s : State W) : (dropInput s).mem = s.mem := rfl
@[simp] theorem dropInput_rtQueue (s : State W) : (dropInput s).rtQueue = s.rtQueue.tail := rfl
@[simp] theorem dropInput_outTrace (s : State W) : (dropInput s).outTrace = s.outTrace := rfl
@[simp] theorem dropInput_progIn (s : State W) : (dropInput s).progIn = s.progIn := rfl
@[simp] theorem dropInput_loadAddr (s : State W) : (dropInput s).loadAddr = s.loadAddr := rfl

@[simp] theorem stopWith_acc (r : RunState) (c : StopCause) (a : Int) (w : Word W) (s : State W) : (stopWith r c a w s).acc = s.acc := rfl
@[simp] theorem stopWith_ic (r : RunState) (c : StopCause) (a : Int) (w : Word W) (s : State W) : (stopWith r c a w s).ic = s.ic := rfl
@[simp] theorem stopWith_ir (r : RunState) (c : StopCause) (a : Int) (w : Word W) (s : State W) : (stopWith r c a w s).ir = s.ir := rfl
@[simp] theorem stopWith_opc (r : RunState) (c : StopCause) (a : Int) (w : Word W) (s : State W) : (stopWith r c a w s).opc = s.opc := rfl
@[simp] theorem stopWith_opd (r : RunState) (c : StopCause) (a : Int) (w : Word W) (s : State W) : (stopWith r c a w s).opd = s.opd := rfl
@[simp] theorem stopWith_runState (r : RunState) (c : StopCause) (a : Int) (w : Word W) (s : State W) : (stopWith r c a w s).runState = r := rfl
@[simp] theorem stopWith_stop (r : RunState) (c : StopCause) (a : Int) (w : Word W) (s : State W) : (stopWith r c a w s).stop = ⟨c, a, w⟩ := rfl
@[simp] theorem stopWith_mem (r : RunState) (c : StopCause) (a : Int) (w : Word W) (s : State W) : (stopWith r c a w s).mem = s.mem := rfl
@[simp] theorem stopWith_rtQueue (r : RunState) (c : StopCause) (a : Int) (w : Word W) (s : State W) : (stopWith r c a w s).rtQueue = s.rtQueue := rfl
@[simp] theorem stopWith_outTrace (r : RunState) (c : StopCause) (a : Int) (w : Word W) (s : State W) : (stopWith r c a w s).outTrace = s.outTrace := rfl
@[simp] theorem stopWith_progIn (r : RunState) (c : StopCause) (a : Int) (w : Word W) (s : State W) : (stopWith r c a w s).progIn = s.progIn := rfl
@[simp] theorem stopWith_loadAddr (r : RunState) (c : StopCause) (a : Int) (w : Word W) (s : State W) : (stopWith r c a w s).loadAddr = s.loadAddr := rfl

@[simp] theorem offerProgram_acc (v : Int) (s : State W) : (offerProgram v s).acc = s.acc := rfl
@[simp] theorem offerProgram_ic (v : Int) (s : State W) : (offerProgram v s).ic = s.ic := rfl
@[simp] theorem offerProgram_ir (v : Int) (s : State W) : (offerProgram v s).ir = s.ir := rfl
@[simp] theorem offerProgram_opc (v : Int) (s : State W) : (offerProgram v s).opc = s.opc := rfl
@[simp] theorem offerProgram_opd (v : Int) (s : State W) : (offerProgram v s).opd = s.opd := rfl
@[simp] theorem offerProgram_runState (v : Int) (s : State W) : (offerProgram v s).runState = s.runState := rfl
@[simp] theorem offerProgram_stop (v : Int) (s : State W) : (offerProgram v s).stop = s.stop := rfl
@[simp] theorem offerProgram_mem (v : Int) (s : State W) : (offerProgram v s).mem = s.mem := rfl
@[simp] theorem offerProgram_rtQueue (v : Int) (s : State W) : (offerProgram v s).rtQueue = s.rtQueue := rfl
@[simp] theorem offerProgram_outTrace (v : Int) (s : State W) : (offerProgram v s).outTrace = s.outTrace := rfl
@[simp] theorem offerProgram_progIn (v : Int) (s : State W) : (offerProgram v s).progIn = s.progIn ++ [v] := rfl
@[simp] theorem offerProgram_loadAddr (v : Int) (s : State W) : (offerProgram v s).loadAddr = s.loadAddr := rfl

@[simp] theorem startRun_acc (s : State W) : (startRun s).acc = s.acc := rfl
@[simp] theorem startRun_ic (s : State W) : (startRun s).ic = s.ic := rfl
@[simp] theorem startRun_ir (s : State W) : (startRun s).ir = s.ir := rfl
@[simp] theorem startRun_opc (s : State W) : (startRun s).opc = s.opc := rfl
@[simp] theorem startRun_opd (s : State W) : (startRun s).opd = s.opd := rfl
@[simp] theorem startRun_runState (s : State W) : (startRun s).runState = .running := rfl
@[simp] theorem startRun_stop (s : State W) : (startRun s).stop = s.stop := rfl
@[simp] theorem startRun_mem (s : State W) : (startRun s).mem = s.mem := rfl
@[simp] theorem startRun_rtQueue (s : State W) : (startRun s).rtQueue = s.rtQueue := rfl
@[simp] theorem startRun_outTrace (s : State W) : (startRun s).outTrace = s.outTrace := rfl
@[simp] theorem startRun_progIn (s : State W) : (startRun s).progIn = s.progIn := rfl
@[simp] theorem startRun_loadAddr (s : State W) : (startRun s).loadAddr = s.loadAddr := rfl

@[simp] theorem loadDemo_acc (s : State W) : (loadDemo s).acc = s.acc := rfl
@[simp] theorem loadDemo_ic (s : State W) : (loadDemo s).ic = s.ic := rfl
@[simp] theorem loadDemo_ir (s : State W) : (loadDemo s).ir = s.ir := rfl
@[simp] theorem loadDemo_opc (s : State W) : (loadDemo s).opc = s.opc := rfl
@[simp] theorem loadDemo_opd (s : State W) : (loadDemo s).opd = s.opd := rfl
@[simp] theorem loadDemo_runState (s : State W) : (loadDemo s).runState = s.runState := rfl
@[simp] theorem loadDemo_stop (s : State W) : (loadDemo s).stop = s.stop := rfl
@[simp] theorem loadDemo_mem (s : State W) : (loadDemo s).mem = storeWords 0 (Config.demoProgram W) s.mem := rfl
@[simp] theorem loadDemo_rtQueue (s : State W) : (loadDemo s).rtQueue = s.rtQueue := rfl
@[simp] theorem loadDemo_outTrace (s : State W) : (loadDemo s).outTrace = s.outTrace := rfl
@[simp] theorem loadDemo_progIn (s : State W) : (loadDemo s).progIn = s.progIn := rfl
@[simp] theorem loadDemo_loadAddr (s : State W) : (loadDemo s).loadAddr = s.loadAddr := rfl

/-! ### The ways of stopping, in terms of `stopWith` -/

@[simp] theorem raise_eq_stopWith (c : StopCause) (a : Int) (w : Word W) (s : State W) :
    raise c a w s = stopWith .faulted c a w s := rfl

@[simp] theorem raiseAddressFault_eq_stopWith (a : Int) (s : State W) :
    raiseAddressFault a s = stopWith .faulted .addressFault a s.ir s := rfl

@[simp] theorem raiseHere_eq_stopWith (c : StopCause) (s : State W) :
    raiseHere c s = stopWith .faulted c (pcAddr s) s.ir s := rfl

@[simp] theorem stopRunaway_eq_stopWith (s : State W) :
    stopRunaway s = stopWith .halted .runaway (pcAddr s) s.ir s := rfl

@[simp] theorem pcAddr_fetchDecode (w : Word W) (s : State W) : pcAddr (fetchDecode w s) = pcAddr s := rfl

end Sys2Proof.Machine
end

