-- ==== Sys2Proof/Laws/Ops.lean ====
section
/-! SUPPORT. One lemma per shared operation that says everything it can do: the validated accesses, and the operand of an
instruction. -/

namespace Sys2Proof.Machine

variable {W : Nat}

@[simp] theorem validAddress_natCast (a : Nat) : validAddress (a : Int) = decide (a < 100) := by
  simp [validAddress]

/-- A validated read: the word of the address, or the address where it does not exist. -/
theorem memRead_natCast (a : Nat) (s : State W) :
    memRead (a : Int) s = if a < 100 then .ok (memGet s.mem a) else .error (a : Int) := by
  simp [memRead]

/-- A validated write: memory and nothing else changes, or the address does not exist. -/
theorem memWrite_natCast (a : Nat) (v : Word W) (s : State W) :
    memWrite (a : Int) v s = if a < 100 then .ok { s with mem := memSet s.mem a v } else .error (a : Int) := by
  simp [memWrite]

/-- Reading an operand: the rest of the instruction with the word, or AddressFault. -/
theorem withOperand_cases (aa : Nat) (s : State W) (rest : Word W → Host.Outcome (State W) Fault Refusal) :
    withOperand aa s rest =
      if aa < 100 then rest (memGet s.mem aa) else .next (stopWith .faulted .addressFault aa s.ir s) := by
  unfold withOperand dataAddress
  rw [memRead_natCast]
  by_cases h : aa < 100 <;> simp [h]

/-- Storing an operand: the rest of the instruction after the store, or AddressFault. -/
theorem storeOperand_cases (aa : Nat) (v : Word W) (s : State W) (rest : State W → State W) :
    storeOperand aa v s rest =
      if aa < 100 then .next (rest { s with mem := memSet s.mem aa v })
      else .next (stopWith .faulted .addressFault aa s.ir s) := by
  unfold storeOperand dataAddress
  rw [memWrite_natCast]
  by_cases h : aa < 100 <;> simp [h]

theorem withOperand_of_le {aa : Nat} (h : aa ≤ 99) (s : State W) (rest : Word W → Host.Outcome (State W) Fault Refusal) :
    withOperand aa s rest = rest (memGet s.mem aa) := by
  rw [withOperand_cases, if_pos (by omega)]

theorem storeOperand_of_le {aa : Nat} (h : aa ≤ 99) (v : Word W) (s : State W) (rest : State W → State W) :
    storeOperand aa v s rest = .next (rest { s with mem := memSet s.mem aa v }) := by
  rw [storeOperand_cases, if_pos (by omega)]

/-- The runtime-value validator in numbers. -/
theorem acceptsRuntime_iff (v : Int) : acceptsRuntime v = true ↔ -9999 ≤ v ∧ v ≤ 9999 := by
  simp [acceptsRuntime]

end Sys2Proof.Machine
end

