-- ==== Sys2Proof/Laws/Exec.lean ====
section
/-! SUPPORT. One spec lemma per instruction: everything its meaning can answer, for every operand. Callers cite these and
unfold no meaning. They stand for every width; `exec_eq_execute` takes them to `exec`. -/

namespace Sys2Proof.Machine

variable {W : Nat}

theorem execute_read_eq (aa : Nat) (s : State W) :
    execute (.read aa) s =
      match s.rtQueue with
      | [] => .fault .waitingForRuntimeInput
      | v :: _ =>
        if aa < 100 then .next (advance (dropInput { s with mem := memSet s.mem aa (wrap v) }))
        else .next (stopWith .faulted .addressFault aa s.ir s) := by
  show execRead aa s = _
  unfold execRead
  split <;> simp_all [storeOperand_cases]

theorem execute_write_eq (aa : Nat) (s : State W) :
    execute (.write aa) s =
      if aa < 100 then .next (advance (outPut (memGet s.mem aa) s))
      else .next (stopWith .faulted .addressFault aa s.ir s) :=
  withOperand_cases aa s _

theorem execute_load_eq (aa : Nat) (s : State W) :
    execute (.load aa) s =
      if aa < 100 then .next (advance (setAcc (memGet s.mem aa) s))
      else .next (stopWith .faulted .addressFault aa s.ir s) :=
  withOperand_cases aa s _

theorem execute_store_eq (aa : Nat) (s : State W) :
    execute (.store aa) s =
      if aa < 100 then .next (advance { s with mem := memSet s.mem aa s.acc })
      else .next (stopWith .faulted .addressFault aa s.ir s) :=
  storeOperand_cases aa s.acc s advance

theorem execute_add_eq (aa : Nat) (s : State W) :
    execute (.add aa) s =
      if aa < 100 then .next (advance (setAcc (aluAdd s.acc (memGet s.mem aa)) s))
      else .next (stopWith .faulted .addressFault aa s.ir s) :=
  withOperand_cases aa s _

theorem execute_subtract_eq (aa : Nat) (s : State W) :
    execute (.subtract aa) s =
      if aa < 100 then .next (advance (setAcc (aluSub s.acc (memGet s.mem aa)) s))
      else .next (stopWith .faulted .addressFault aa s.ir s) :=
  withOperand_cases aa s _

theorem execute_divide_eq (aa : Nat) (s : State W) :
    execute (.divide aa) s =
      if aa < 100 then
        if memGet s.mem aa = 0 then .next (stopWith .faulted .divideByZero (pcAddr s) s.ir s)
        else .next (advance (setAcc (aluDiv s.acc (memGet s.mem aa)) s))
      else .next (stopWith .faulted .addressFault aa s.ir s) :=
  withOperand_cases aa s _

theorem execute_multiply_eq (aa : Nat) (s : State W) :
    execute (.multiply aa) s =
      if aa < 100 then .next (advance (setAcc (aluMul s.acc (memGet s.mem aa)) s))
      else .next (stopWith .faulted .addressFault aa s.ir s) :=
  withOperand_cases aa s _

theorem execute_branch_eq (aa : Nat) (s : State W) : execute (.branch aa) s = .next (jump aa s) := rfl

theorem execute_branchneg_eq (aa : Nat) (s : State W) :
    execute (.branchneg aa) s = .next { s with ic := if s.acc.toInt < 0 then BitVec.ofNat 7 aa else s.ic + 1 } := by
  simp only [execute, execBranchneg, accNegative, decide_eq_true_eq]
  split <;> rfl

theorem execute_branchzero_eq (aa : Nat) (s : State W) :
    execute (.branchzero aa) s = .next { s with ic := if s.acc.toInt = 0 then BitVec.ofNat 7 aa else s.ic + 1 } := by
  simp only [execute, execBranchzero, accZero, decide_eq_true_eq]
  split <;> rfl

theorem execute_halt_eq (aa : Nat) (s : State W) :
    execute (.halt aa) s = .next (advance (stopWith .halted .halt (pcAddr s) s.ir s)) := rfl

/-- No instruction is refused. -/
theorem execute_ne_refused (i : Instr) (s : State W) (r : Refusal) : execute i s ≠ .refused r := by
  cases i <;>
    simp only [execute_read_eq, execute_write_eq, execute_load_eq, execute_store_eq, execute_add_eq, execute_subtract_eq, execute_divide_eq,
      execute_multiply_eq, execute_branch_eq, execute_branchneg_eq, execute_branchzero_eq, execute_halt_eq] <;>
    (repeat' split) <;> simp

/-- The two dispatch tables agree: `exec` is `execute` at the default width. -/
theorem exec_eq_execute (i : Instr) (s : State) : exec i s = execute i s := by
  cases i <;> rfl

end Sys2Proof.Machine
end

