-- ==== Sys2Proof/Laws/Loader.lean ====
section
/-! SUPPORT. What the loader does with one value, said once. -/

namespace Sys2Proof.Machine

variable {W : Nat}

/-- The program path: the word is stored and the address moves on, or the load overflows. -/
theorem loadWord_eq (v : Int) {s : State W} (h : s.loadAddr ≤ 100) :
    loadWord v s =
      if s.loadAddr = 100 then stopWith .faulted .loadOverflow 100 (wrap v) s
      else { s with mem := memSet s.mem s.loadAddr (wrap v), loadAddr := s.loadAddr + 1 } := by
  unfold loadWord
  by_cases hz : s.loadAddr = 100
  · rw [if_pos hz, if_pos hz]
    rfl
  · rw [if_neg hz, if_neg hz, memWrite_natCast, if_pos (by omega)]

/-- The five things the loader can do with a value: discard it, take the demonstration path, complete the load, overflow,
or store it. -/
theorem loadValue_cases (v : Int) {s : State W} (h : s.loadAddr ≤ 100) :
    (acceptsProgramWord v = false ∧ loadValue v s = s) ∨
    (s.loadAddr = 0 ∧ v = -88888 ∧ loadValue v s = startRun (loadDemo s)) ∨
    (v = -99999 ∧ loadValue v s = startRun s) ∨
    (acceptsProgramWord v = true ∧ v ≠ -99999 ∧ s.loadAddr = 100 ∧
      loadValue v s = stopWith .faulted .loadOverflow 100 (wrap v) s) ∨
    (acceptsProgramWord v = true ∧ v ≠ -99999 ∧ ¬ (s.loadAddr = 0 ∧ v = -88888) ∧ s.loadAddr < 100 ∧
      loadValue v s = { s with mem := memSet s.mem s.loadAddr (wrap v), loadAddr := s.loadAddr + 1 }) := by
  unfold loadValue
  by_cases ha : acceptsProgramWord v = true
  · rw [if_pos ha]
    by_cases hd : s.loadAddr = 0 ∧ v = -88888
    · rw [if_pos hd]
      exact .inr (.inl ⟨hd.1, hd.2, rfl⟩)
    · rw [if_neg hd]
      by_cases hs : v = -99999
      · rw [if_pos hs]
        exact .inr (.inr (.inl ⟨hs, rfl⟩))
      · rw [if_neg hs, loadWord_eq v h]
        by_cases hz : s.loadAddr = 100
        · rw [if_pos hz]
          exact .inr (.inr (.inr (.inl ⟨ha, hs, hz, rfl⟩)))
        · rw [if_neg hz]
          exact .inr (.inr (.inr (.inr ⟨ha, hs, hd, by omega, rfl⟩)))
  · rw [if_neg ha]
    exact .inl ⟨by simpa using ha, rfl⟩

/-- The stop sentinel completes the load from any state. -/
theorem loadValue_stop (s : State W) : loadValue Config.stopSentinel s = startRun s := by
  have ha : acceptsProgramWord Config.stopSentinel = true := by decide
  rw [loadValue, if_pos ha, if_neg (fun h => absurd h.2 (by decide)), if_pos rfl]

/-- The demonstration sentinel as the first accepted value copies the program and completes the load. -/
theorem loadValue_demo {s : State W} (h : s.loadAddr = 0) :
    loadValue Config.demoSentinel s = startRun (loadDemo s) := by
  have ha : acceptsProgramWord Config.demoSentinel = true := by decide
  rw [loadValue, if_pos ha, if_pos ⟨h, rfl⟩]

/-- The loader reads neither queue: what else is offered is carried along. -/
theorem loadValue_queues (v : Int) (p q : List Int) (s : State W) :
    loadValue v { s with progIn := p, rtQueue := q } = { loadValue v s with progIn := p, rtQueue := q } := by
  unfold loadValue loadWord
  rw [memWrite_natCast, memWrite_natCast]
  by_cases h1 : acceptsProgramWord v = true
  · by_cases h2 : s.loadAddr = 0 ∧ v = Config.demoSentinel
    · rw [if_pos h1, if_pos h1, if_pos h2, if_pos h2]
      rfl
    · rw [if_pos h1, if_pos h1, if_neg h2, if_neg h2]
      by_cases h3 : v = Config.stopSentinel
      · rw [if_pos h3, if_pos h3]
        rfl
      · rw [if_neg h3, if_neg h3]
        by_cases h4 : s.loadAddr = Config.memSize
        · rw [if_pos h4, if_pos h4]
          rfl
        · rw [if_neg h4, if_neg h4]
          by_cases h5 : s.loadAddr < 100
          · rw [if_pos h5, if_pos h5]
          · rw [if_neg h5, if_neg h5]
            rfl
  · rw [if_neg h1, if_neg h1]

end Sys2Proof.Machine
end

