-- ==== Sys2Proof/Laws/PerInstr.lean ====
section
/-! SUPPORT. A statement made for each instruction as syntax, one lemma per constructor. -/

namespace Sys2Proof.Laws.EncodedRange

/-- At every width, the encoded word of a well-formed instruction is its operation code times 100 plus its operand, and lies in 1000 to
4399 (30_encoding.md R70, R73). -/
def Statement (i : Instr) : Prop :=
  ∀ W, Config.minWidth ≤ W → i.wellFormed = true →
    (encode i : Word W).toInt = i.opcode * 100 + i.operand ∧
      1000 ≤ (encode i : Word W).toInt ∧ (encode i : Word W).toInt ≤ 4399

/-- The word of an instruction whose operation code lies in 10 to 43. -/
theorem of_opcode_bounds {i : Instr} (h1 : 10 ≤ i.opcode) (h2 : i.opcode ≤ 43) : Statement i := by
  intro W hW h
  have h3 : i.operand ≤ 99 := by simpa [Instr.wellFormed] using h
  rw [encode, toInt_wrap_of_bounds hW (by omega) (by omega)]
  omega

theorem read (aa : Nat) : Statement (.read aa) := of_opcode_bounds (by simp [Instr.opcode]) (by simp [Instr.opcode])
theorem write (aa : Nat) : Statement (.write aa) := of_opcode_bounds (by simp [Instr.opcode]) (by simp [Instr.opcode])
theorem load (aa : Nat) : Statement (.load aa) := of_opcode_bounds (by simp [Instr.opcode]) (by simp [Instr.opcode])
theorem store (aa : Nat) : Statement (.store aa) := of_opcode_bounds (by simp [Instr.opcode]) (by simp [Instr.opcode])
theorem add (aa : Nat) : Statement (.add aa) := of_opcode_bounds (by simp [Instr.opcode]) (by simp [Instr.opcode])
theorem subtract (aa : Nat) : Statement (.subtract aa) := of_opcode_bounds (by simp [Instr.opcode]) (by simp [Instr.opcode])
theorem divide (aa : Nat) : Statement (.divide aa) := of_opcode_bounds (by simp [Instr.opcode]) (by simp [Instr.opcode])
theorem multiply (aa : Nat) : Statement (.multiply aa) := of_opcode_bounds (by simp [Instr.opcode]) (by simp [Instr.opcode])
theorem branch (aa : Nat) : Statement (.branch aa) := of_opcode_bounds (by simp [Instr.opcode]) (by simp [Instr.opcode])
theorem branchneg (aa : Nat) : Statement (.branchneg aa) := of_opcode_bounds (by simp [Instr.opcode]) (by simp [Instr.opcode])
theorem branchzero (aa : Nat) : Statement (.branchzero aa) := of_opcode_bounds (by simp [Instr.opcode]) (by simp [Instr.opcode])
theorem halt (aa : Nat) : Statement (.halt aa) := of_opcode_bounds (by simp [Instr.opcode]) (by simp [Instr.opcode])

end Sys2Proof.Laws.EncodedRange
end

