-- ==== Sys2Proof/Laws/Step.lean ====
section
/-! SUPPORT. What one transaction of the machine can do, said once: the inversion lemma, and the equation of each case. -/

namespace Sys2Proof.Machine

variable {W : Nat}

theorem limit_le (limit : Config.FetchLimit) : limit.value ≤ 99 := by
  cases limit <;> decide

theorem guardFires_iff (limit : Config.FetchLimit) (s : State W) :
    guardFires limit s = true ↔ limit.value < s.ic.toNat := by
  simp [guardFires]

/-- Dispatch on the decode registers is dispatch on the decoded word. -/
theorem dispatch_fetchDecode (w : Word W) (s : State W) :
    dispatch (fetchDecode w s) =
      match decode w with
      | .error _ => .next (stopWith .faulted .illegalOpcode (pcAddr s) w (fetchDecode w s))
      | .ok i => execute i (fetchDecode w s) := rfl

/-- A word whose operation code is recognized decodes to an instruction, every other word to none. -/
theorem decode_of_not_mem {w : Word W} (h : (opcodeOf w).toInt ∉ Config.opcodes) :
    decode w = .error (.illegalOpcode (opcodeOf w).toInt) :=
  select_of_not_mem h _

theorem transaction_idle {s : State W} (limit : Config.FetchLimit) (h : s.runState = .idle) :
    transaction limit s = loaderStep s := by
  simp [transaction, h]

theorem transaction_running {s : State W} (limit : Config.FetchLimit) (h : s.runState = .running) :
    transaction limit s = engineStep limit s := by
  simp [transaction, h]

/-- Past the limit the engine stops softly. -/
theorem transaction_runaway {limit : Config.FetchLimit} {s : State W} (h : s.runState = .running)
    (hic : limit.value < s.ic.toNat) :
    transaction limit s = .next (stopWith .halted .runaway (pcAddr s) s.ir s) := by
  rw [transaction_running limit h, engineStep, if_pos ((guardFires_iff limit s).2 hic), stopRunaway_eq_stopWith]

/-- Within the limit the engine dispatches the word it fetches: the fetch never fails validation. -/
theorem transaction_of_fetches {limit : Config.FetchLimit} {s : State W} {w : Word W} (h : Fetches limit s w) :
    transaction limit s = dispatch (fetchDecode w s) := by
  have hic := h.inLimit
  have hl := limit_le limit
  rw [transaction_running limit h.running, engineStep, if_neg (by rw [guardFires_iff]; omega), pcAddr, memRead_natCast,
    if_pos (by omega), h.fetched]

/-- A run goes on from the next state of its first step. -/
theorem run_succ {limit : Config.FetchLimit} {s t : State W} (n : Nat) (h : transaction limit s = .next t) :
    (machine W limit).run (n + 1) s = (machine W limit).run n t := by
  have h' : (machine W limit).step s = .next t := h
  simp only [Host.Core.run, h']

/-- The machine behind the host's interface is the one with both defaults. -/
theorem core_eq_machine : core = machine Config.W Config.fetchLimit := rfl

/-- What one transaction that answers a next state has done: the loader consumed a value, the guard stopped the engine,
dispatch found no instruction, or an instruction was executed. -/
theorem transaction_cases {limit : Config.FetchLimit} {s t : State W} (h : transaction limit s = .next t) :
    (s.runState = .idle ∧ ∃ v rest, s.progIn = v :: rest ∧ t = loadValue v { s with progIn := rest }) ∨
    (s.runState = .running ∧ limit.value < s.ic.toNat ∧ t = stopWith .halted .runaway (pcAddr s) s.ir s) ∨
    (∃ w, Fetches limit s w ∧ (∃ e, decode w = .error e) ∧
      t = stopWith .faulted .illegalOpcode (pcAddr s) w (fetchDecode w s)) ∨
    (∃ w i, Fetches limit s w ∧ decode w = .ok i ∧ execute i (fetchDecode w s) = .next t) := by
  cases hs : s.runState with
  | idle =>
    rw [transaction_idle limit hs, loaderStep] at h
    split at h
    · cases h
    · cases h
      exact .inl ⟨rfl, _, _, ‹_›, by simp [hs]⟩
  | running =>
    by_cases hic : limit.value < s.ic.toNat
    · rw [transaction_runaway hs hic] at h
      cases h
      exact .inr (.inl ⟨rfl, hic, rfl⟩)
    · have hf : Fetches limit s (memGet s.mem s.ic.toNat) := ⟨hs, by omega, rfl⟩
      rw [transaction_of_fetches hf, dispatch_fetchDecode] at h
      split at h
      · cases h
        exact .inr (.inr (.inl ⟨_, hf, ⟨_, ‹_›⟩, rfl⟩))
      · exact .inr (.inr (.inr ⟨_, _, hf, ‹_›, h⟩))
  | halted => simp [transaction, hs] at h
  | faulted => simp [transaction, hs] at h

end Sys2Proof.Machine
end

