-- ==== Sys2Proof/Tests/Slice0.lean ====
section
/-! SUPPORT. The model's own tests. Expected values come from spec/ (the test vectors of 95_test_vectors.md or the
rules' own examples). The theorems named `witness_…` show, for each obligation with hypotheses, a concrete input that
meets them all. -/

namespace Sys2Proof.Tests

open Sys2Proof.Machine

/-- The next state of an outcome, none where no step is taken. -/
def after {W : Nat} : Host.Outcome (State W) Fault Refusal → Option (State W)
  | .next s => some s
  | .fault _ => none
  | .refused _ => none

/-- A running machine with an accumulator, a counter and a memory; everything else as after reset. -/
def running (acc : Word) (ic : Counter) (mem : Memory) : State :=
  { State.reset with runState := .running, acc := acc, ic := ic, mem := mem }

/-- The same with runtime inputs queued. -/
def fed (q : List Int) (s : State) : State :=
  { s with rtQueue := q }

/-- A word from its integer. -/
def w (v : Int) : Word := wrap v

/-! ### WellFormed: an operand of three digits is refused, for every constructor (30_encoding.md R73) -/

theorem test_wf_read_refused : (Instr.read 100).wellFormed = false := by decide
theorem test_wf_write_refused : (Instr.write 100).wellFormed = false := by decide
theorem test_wf_load_refused : (Instr.load 100).wellFormed = false := by decide
theorem test_wf_store_refused : (Instr.store 100).wellFormed = false := by decide
theorem test_wf_add_refused : (Instr.add 100).wellFormed = false := by decide
theorem test_wf_subtract_refused : (Instr.subtract 100).wellFormed = false := by decide
theorem test_wf_divide_refused : (Instr.divide 100).wellFormed = false := by decide
theorem test_wf_multiply_refused : (Instr.multiply 100).wellFormed = false := by decide
theorem test_wf_branch_refused : (Instr.branch 100).wellFormed = false := by decide
theorem test_wf_branchneg_refused : (Instr.branchneg 100).wellFormed = false := by decide
theorem test_wf_branchzero_refused : (Instr.branchzero 100).wellFormed = false := by decide
theorem test_wf_halt_refused : (Instr.halt 100).wellFormed = false := by decide
theorem test_wf_last_operand : (Instr.halt 99).wellFormed = true := by decide

/-! ### Decode: one word of each constructor, its W = 32 bits written out from R70 and R75 -/

/-- 1009. -/
theorem test_decode_read : decode (0b00000000000000000000001111110001#32) = .ok (.read 9) := by decide
/-- 1110. -/
theorem test_decode_write : decode (0b00000000000000000000010001010110#32) = .ok (.write 10) := by decide
/-- 2009. -/
theorem test_decode_load : decode (0b00000000000000000000011111011001#32) = .ok (.load 9) := by decide
/-- 2120. -/
theorem test_decode_store : decode (0b00000000000000000000100001001000#32) = .ok (.store 20) := by decide
/-- 3010. -/
theorem test_decode_add : decode (0b00000000000000000000101111000010#32) = .ok (.add 10) := by decide
/-- 3110. -/
theorem test_decode_subtract : decode (0b00000000000000000000110000100110#32) = .ok (.subtract 10) := by decide
/-- 3211. -/
theorem test_decode_divide : decode (0b00000000000000000000110010001011#32) = .ok (.divide 11) := by decide
/-- 3312. -/
theorem test_decode_multiply : decode (0b00000000000000000000110011110000#32) = .ok (.multiply 12) := by decide
/-- 4002. -/
theorem test_decode_branch : decode (0b00000000000000000000111110100010#32) = .ok (.branch 2) := by decide
/-- 4107. -/
theorem test_decode_branchneg : decode (0b00000000000000000001000000001011#32) = .ok (.branchneg 7) := by decide
/-- 4209. -/
theorem test_decode_branchzero : decode (0b00000000000000000001000001110001#32) = .ok (.branchzero 9) := by decide
/-- 4300. -/
theorem test_decode_halt : decode (0b00000000000000000001000011001100#32) = .ok (.halt 0) := by decide

/-! Illegal words of 95_test_vectors.md 2.1, with `OPC` and `OPD`. -/

theorem test_decode_zero : decode (0 : Word) = .error (.illegalOpcode 0) := by decide
theorem test_decode_below : decode (w 999) = .error (.illegalOpcode 9) := by decide
theorem test_decode_gap : decode (w 2200) = .error (.illegalOpcode 22) := by decide
theorem test_decode_above : decode (w 4400) = .error (.illegalOpcode 44) := by decide
theorem test_decode_negative : opcodeOf (w (-1009)) = w (-10) ∧ operandOf (w (-1009)) = w (-9) := by decide
theorem test_decode_least : opcodeOf (w (-2147483648)) = w (-21474836) ∧ operandOf (w (-2147483648)) = w (-48) := by decide
theorem test_table_word : decodeTableWord 32 1099 = some (.read 99) := by decide
theorem test_encode : encode (.multiply 99) = w 3399 := by decide

/-! ### One step of each instruction (95_test_vectors.md 2.3 to 2.6) -/

theorem test_read_overwrites_itself :
    (after (step (fed [4300] (running 0 5 [(5, w 1005)])))).map (fun t => (t.mem, t.ic, t.rtQueue)) =
      some ([(5, w 4300)], 6, []) := by decide
theorem test_read_oldest_first :
    (after (step (fed [-9999, 4] (running 3 0 [(0, w 1009)])))).map (fun t => (memGet t.mem 9, t.acc, t.rtQueue)) =
      some (w (-9999), 3, [4]) := by decide
theorem test_write_own_word :
    (after (step (running 0 7 [(7, w 1107)]))).map (fun t => (t.outTrace, t.ic)) = some ([w 1107], 8) := by decide
theorem test_write_unclamped :
    (after (step (running 0 0 [(0, w 1110), (10, w (-2147483648))]))).map (·.outTrace) =
      some [w (-2147483648)] := by decide
theorem test_load_own_word :
    (after (step (running 0 4 [(4, w 2004)]))).map (fun t => (t.acc, t.ic)) = some (w 2004, 5) := by decide
theorem test_load_unclamped :
    (after (step (running 0 0 [(0, w 2009), (9, w (-123456))]))).map (·.acc) = some (w (-123456)) := by decide
theorem test_store_unclamped :
    (after (step (running (w 99980001) 0 [(0, w 2120)]))).map (fun t => (memGet t.mem 20, t.acc)) =
      some (w 99980001, w 99980001) := by decide
theorem test_store_overwrites_itself :
    (after (step (running 5 6 [(6, w 2106)]))).map (fun t => (t.mem, t.ic)) = some ([(6, 5)], 7) := by decide
theorem test_add_wraps :
    (after (step (running (w 2147483647) 0 [(0, w 3010), (10, 1)]))).map (·.acc) = some (w (-2147483648)) := by decide
theorem test_add_example :
    (after (step (running 2 3 [(3, w 3010), (10, 3)]))).map (fun t => (t.acc, t.ic)) = some (5, 4) := by decide
theorem test_subtract_order :
    (after (step (running 2 3 [(3, w 3110), (10, 3)]))).map (fun t => (t.acc, t.ic)) = some (w (-1), 4) := by decide
theorem test_subtract_least :
    (after (step (running (w (-2147483648)) 0 [(0, w 3110), (10, 1)]))).map (·.acc) = some (w 2147483647) := by decide
theorem test_divide_truncates :
    (after (step (running (w (-7)) 3 [(3, w 3211), (11, 2)]))).map (fun t => (t.acc, t.ic)) = some (w (-3), 4) := by decide
theorem test_divide_by_zero :
    (after (step (running (w (-7)) 3 [(3, w 3211)]))).map (fun t => (t.runState, t.stop, t.acc, t.ic, t.ir)) =
      some (.faulted, ⟨.divideByZero, 3, w 3211⟩, w (-7), 3, w 3211) := by decide
theorem test_multiply_wraps :
    (after (step (running (w 99980001) 0 [(0, w 3310), (10, w 9999)]))).map (·.acc) = some (w (-1027349969)) := by decide
theorem test_multiply_example :
    (after (step (running (w (-4)) 0 [(0, w 3312), (12, 6)]))).map (fun t => (t.acc, t.ic)) = some (w (-24), 1) := by decide
theorem test_branch :
    (after (step (running 0 7 [(7, w 4002)]))).map (·.ic) = some 2 := by decide
theorem test_branch_to_99 :
    (after (step (running 0 0 [(0, w 4099)]))).map (fun t => (t.ic, t.runState)) = some (99, .running) := by decide
theorem test_branchneg_taken :
    (after (step (running (w (-5)) 2 [(2, w 4105)]))).map (·.ic) = some 5 := by decide
theorem test_branchneg_zero_falls_through :
    (after (step (running 0 2 [(2, w 4105)]))).map (·.ic) = some 3 := by decide
theorem test_branchzero_taken :
    (after (step (running 0 2 [(2, w 4205)]))).map (·.ic) = some 5 := by decide
theorem test_branchzero_minus_one_falls_through :
    (after (step (running (w (-1)) 2 [(2, w 4205)]))).map (·.ic) = some 3 := by decide
theorem test_halt_ignores_operand :
    (after (step (running 0 6 [(6, w 4377)]))).map (fun t => (t.runState, t.stop, t.ic, t.opd)) =
      some (.halted, ⟨.halt, 6, w 4377⟩, 7, w 77) := by decide
theorem test_halt_at_98 :
    (after (step (running 0 98 [(98, w 4300)]))).map (fun t => (t.stop, t.ic)) = some (⟨.halt, 98, w 4300⟩, 99) := by decide

/-! ### The engine and the loader (95_test_vectors.md 2.2, 2.7) -/

theorem test_runaway :
    after (step (running (w 2000) 99 [(0, w 2000)])) =
      some { running (w 2000) 99 [(0, w 2000)] with runState := .halted, stop := ⟨.runaway, 99, 0⟩ } := by decide
theorem test_limit_99_fetches_99 :
    (after (transaction .at99 (running 0 99 []))).map (fun t => (t.runState, t.stop)) =
      some (.faulted, ⟨.illegalOpcode, 99, 0⟩) := by decide
theorem test_illegal_late_demo_sentinel :
    (after (step (running 0 1 [(1, w (-88888))]))).map (fun t => (t.stop, t.ic, t.opc, t.opd)) =
      some (⟨.illegalOpcode, 1, w (-88888)⟩, 1, w (-888), w (-88)) := by decide
theorem test_read_waits : step (running 0 0 [(0, w 1000)]) = .fault .waitingForRuntimeInput := by rfl
theorem test_loader_stores :
    (after (step { State.reset with progIn := [4300, -99999] })).map (fun t => (t.mem, t.loadAddr, t.progIn)) =
      some ([(0, w 4300)], 1, [-99999]) := by decide
theorem test_loader_discards :
    after (step { State.reset with progIn := [-99950] }) = some State.reset := by decide
theorem test_loader_late_demo_sentinel :
    (after (step { State.reset with progIn := [-88888], mem := [(0, w 1005)], loadAddr := 1 })).map (·.mem) =
      some [(0, w 1005), (1, w (-88888))] := by decide
theorem test_loader_overflow :
    (after (step { State.reset with progIn := [2000], loadAddr := 100 })).map (fun t => (t.runState, t.stop)) =
      some (.faulted, ⟨.loadOverflow, 100, w 2000⟩) := by decide
theorem test_empty_program :
    (after (step { State.reset with progIn := [-99999] })).map (·.runState) = some .running := by decide
theorem test_place_read :
    (after (step (State.reset.withFetchWord 32 1009))).map (fun t => (t.ir, t.runState, t.ic)) =
      some (w 1009, .running, 1) := by decide

/-! ### Other widths: the ALU's vectors for W = 16 (95_test_vectors.md 2.5), and the machine at the least width, W = 18
(R4: -88888 is a word of it; the sum wraps as R11 says) -/

theorem test_add_16 : aluAdd (32767 : BitVec 16) 1 = -32768 := by decide
theorem test_multiply_16 : aluMul (9999 : BitVec 16) 9999 = -27935 := by decide
theorem test_divide_16 : aluDiv (-32768 : BitVec 16) (-1) = -32768 := by decide

/-- A running machine of 18 bits. -/
def running18 (acc : Word 18) (mem : Memory 18) : State 18 :=
  { State.resetAt 18 with runState := .running, acc := acc, mem := mem }

theorem test_transaction_18_wraps :
    (after (transaction .at98 (running18 (wrap 131071) [(0, wrap 3010), (10, 1)]))).map (·.acc.toInt) =
      some (-131072) := by decide
theorem test_machine_18_step :
    (after ((machine 18 .at99).step (running18 0 [(0, wrap 2009), (9, wrap (-88888))]))).map (·.acc.toInt) =
      some (-88888) := by decide
theorem test_machine_18_loads :
    (after ((machine 18 .at98).step { State.resetAt 18 with progIn := [-88888], loadAddr := 1 })).map
        (fun t => (memGet t.mem 1).toInt) = some (-88888) := by decide

/-! ### Witnesses: inputs that meet the hypotheses of the obligations, at boundary values

`atW v a` is a running machine about to execute the word `v` at address `a`. -/

/-- A running machine whose only listed cell is the instruction at its counter. -/
def atW (v : Int) (a : Nat) : State :=
  running 0 (BitVec.ofNat 7 a) [(a, w v)]

theorem fetches_atW_0 (v : Int) : Fetches .at98 (atW v 0) (w v) :=
  ⟨rfl, Nat.zero_le _, by simp [atW, running, memGet]⟩

theorem witness_WrapIsTheCongruentWord : 0 < 32 ∧ (wrap 2147483648 : BitVec 32).toInt = -2147483648 := by decide
theorem witness_QuotTruncatesTowardZero : (2 : Int) ≠ 0 ∧ quot (-7) 2 = -3 ∧ rem (-7) 2 = -1 := by decide
theorem witness_AluIsExactInTheDataRange :
    Config.dataMin ≤ (-9999 : BitVec 28).toInt ∧ (9999 : BitVec 28).toInt ≤ Config.dataMax ∧
      Config.dataMin ≤ (-9999 : BitVec 16).toInt ∧ (9999 : BitVec 16).toInt ≤ Config.dataMax := by decide
theorem witness_DivisionOverflowsInOneCaseOnly :
    (-1 : BitVec 32) ≠ 0 ∧ (w (-2147483648)).toInt = -(2 : Int) ^ (32 - 1) ∧ (-1 : BitVec 32).toInt = -1 ∧
      ¬ ((w (-2147483647)).toInt = -(2 : Int) ^ (32 - 1) ∧ (-1 : BitVec 32).toInt = -1) := by decide
theorem witness_DecodeSplitsByHundred :
    Config.minWidth ≤ 18 ∧ (opcodeOf (wrap (-131072) : Word 18)).toInt = -1310 ∧
      (operandOf (wrap (-131072) : Word 18)).toInt = -72 := by decide
theorem witness_IllegalWordsAreExactlyTheseRanges :
    Config.minWidth ≤ 18 ∧ decode (wrap 131071 : Word 18) = .error (.illegalOpcode 1310) ∧
      decode (wrap 4399 : Word 18) = .ok (.halt 99) := by decide
theorem witness_DecodeEncodeRoundTrip :
    Config.minWidth ≤ 18 ∧ decode (encode (.halt 99) : Word 18) = .ok (.halt 99) ∧
      Config.minWidth ≤ Config.W ∧ (Instr.halt 99).wellFormed = true ∧ decode (w 3399) = .ok (.multiply 99) ∧
      quot (w 4399).toInt 100 ∈ Config.opcodes := by decide
theorem witness_ReadStoresTheOldestInput :
    99 ≤ 99 ∧ Config.minWidth ≤ Config.W ∧
      (running 0 0 []).rtQueue = [] ∧ (fed [-9999, 7] (running 0 0 [])).rtQueue = -9999 :: [7] ∧
      (running 0 0 []).mem.wf = true ∧ acceptsRuntime (-9999) = true := by decide
theorem witness_WriteEmitsTheWord :
    99 ≤ 99 ∧ Config.minWidth ≤ Config.W ∧
      (after (exec (.write 99) (running 0 0 [(99, 5)]))).map (·.outTrace) = some [5] := by decide
theorem witness_LoadCopiesTheWord :
    99 ≤ 99 ∧ Config.minWidth ≤ Config.W ∧
      (after (exec (.load 99) (running 0 0 [(99, 5)]))).map (·.acc) = some 5 := by decide
theorem witness_AddWrapsTheSum :
    99 ≤ 99 ∧ Config.minWidth ≤ Config.W ∧
      (after (exec (.add 99) (running 1 0 [(99, 5)]))).map (·.acc) = some 6 := by decide
theorem witness_SubtractWrapsTheDifference :
    99 ≤ 99 ∧ Config.minWidth ≤ Config.W ∧
      (after (exec (.subtract 99) (running 7 0 [(99, 5)]))).map (·.acc) = some 2 := by decide
theorem witness_MultiplyWrapsTheProduct :
    99 ≤ 99 ∧ Config.minWidth ≤ Config.W ∧
      (after (exec (.multiply 99) (running 7 0 [(99, 5)]))).map (·.acc) = some 35 := by decide
theorem witness_BranchReplacesTheCounter :
    99 ≤ 99 ∧ Config.minWidth ≤ Config.W ∧
      (after (exec (.branch 99) (running 7 0 []))).map (·.ic) = some 99 := by decide
theorem witness_HaltStopsTheEngine :
    99 ≤ 99 ∧ Config.minWidth ≤ Config.W ∧
      (after (exec (.halt 99) (running 7 0 []))).map (·.runState) = some .halted := by decide
theorem witness_StoreCopiesTheAccumulator : 99 ≤ 99 ∧ Config.minWidth ≤ Config.W ∧
      (running 5 0 [(99, 1)]).mem.wf = true := by decide
theorem witness_DivideTruncatesOrStops :
    99 ≤ 99 ∧ Config.minWidth ≤ Config.W ∧
      memGet (running 7 0 [(99, 2)]).mem 99 ≠ 0 ∧ memGet (running 7 0 []).mem 99 = 0 := by decide
theorem witness_BranchnegTestsForNegative :
    99 ≤ 99 ∧ Config.minWidth ≤ Config.W ∧
      (running (w (-1)) 0 []).acc.toInt < 0 ∧ 0 ≤ (running 0 0 []).acc.toInt := by decide
theorem witness_BranchzeroTestsForZero :
    99 ≤ 99 ∧ Config.minWidth ≤ Config.W ∧
      (running 0 0 []).acc = 0 ∧ (running (w (-1)) 0 []).acc ≠ 0 := by decide
theorem witness_OverflowWrapsAndTheEngineContinues :
    (Instr.add 99, (w 2147483647).toInt + (memGet ([(99, 1)] : Memory) 99).toInt) ∈
        [(Instr.add 99, (2147483648 : Int)), (Instr.subtract 99, 2147483646), (Instr.multiply 99, 2147483647)] ∧
      memGet ([(99, w (-1))] : Memory) 99 ≠ 0 ∧ quot (w (-2147483648)).toInt (memGet ([(99, w (-1))] : Memory) 99).toInt = 2147483648 := by
  decide
theorem witness_ConditionalBranchesReadOnlyTheAccumulator :
    (∃ t, execute (.branchneg 99) (running (w (-1)) 2 []) = .next t ∧ t.ic = 99) ∧
      ∃ t, execute (.branchzero 99) (running 1 2 []) = .next t ∧ t.ic = 3 :=
  ⟨⟨_, rfl, by decide⟩, ⟨_, rfl, by decide⟩⟩
theorem witness_OperandOutsideMemoryRaisesAddressFault :
    100 ≤ 100 ∧ Instr.multiply 100 ∈ [Instr.add 100, Instr.multiply 100] ∧ (fed [0] (running 0 0 [])).rtQueue ≠ [] := by
  decide
theorem witness_StoringInstructionsFrame :
    (running 5 0 [(99, 1)]).mem.wf = true ∧ (∃ t, execute (.store 99) (running 5 0 [(99, 1)]) = .next t) ∧
      ∃ t, execute (.read 0) (fed [9999] (running 5 0 [(99, 1)])) = .next t :=
  ⟨by decide, ⟨_, rfl⟩, ⟨_, rfl⟩⟩
theorem witness_NonStoringInstructionsFrame :
    (Instr.divide 99).wellFormed = true ∧ (∀ aa, Instr.divide 99 ≠ .read aa ∧ Instr.divide 99 ≠ .store aa) ∧
      (∃ t, execute (.divide 99) (running 5 0 []) = .next t ∧ t.runState = .faulted) ∧
      ∃ t, execute (.divide 99) (running 5 0 [(99, 1)]) = .next t ∧ t.runState = .running :=
  ⟨by decide, by simp, ⟨_, rfl, rfl⟩, ⟨_, rfl, by decide⟩⟩
theorem witness_OnlyFiveInstructionsWriteTheAccumulator :
    ∃ t, transaction .at98 (atW 2000 0) = .next t ∧ t.acc ≠ (atW 2000 0).acc := ⟨_, rfl, by decide⟩
theorem witness_OnlyReadAndStoreWriteMemory :
    Config.minWidth ≤ Config.W ∧
      (atW 2100 0).mem.wf = true ∧ (atW 2100 0).runState ≠ .idle ∧
      ∃ t, transaction .at98 (atW 2100 0) = .next t ∧ memGet t.mem 0 ≠ memGet (atW 2100 0).mem 0 :=
  ⟨by decide, by decide, by decide, _, rfl, by decide⟩

/-- The clauses of the counter rule: a fatal stop, HALT at the last fetched address, each branch taken and not taken. -/
theorem witness_CounterAdvanceRule :
    Config.minWidth ≤ Config.W ∧
      Fetches .at98 (atW 3299 0) (w 3299) ∧ decode (w 3299) = .ok (.divide 99) ∧
      (after (transaction .at98 (atW 3299 0))).map (·.runState) = some .faulted ∧
      (after (transaction .at98 (atW 4300 98))).map (·.ic) = some 99 ∧
      (after (transaction .at98 (atW 4099 0))).map (·.ic) = some 99 ∧
      (after (transaction .at98 (atW 4199 0))).map (·.ic) = some 1 ∧
      (after (transaction .at98 (atW 4299 0))).map (·.ic) = some 99 :=
  ⟨by decide, fetches_atW_0 _, by decide, by decide, by decide, by decide, by decide, by decide⟩
theorem witness_StepRunsTheDecodedInstruction :
    (atW 4398 98).runState = .running ∧ (atW 4398 98).ic.toNat ≤ 98 ∧
      memGet (atW 4398 98).mem (atW 4398 98).ic.toNat = w 4398 ∧ decode (w 4398) = .ok (.halt 98) := by decide
theorem witness_IllegalOpcodeStopsTheEngine :
    Config.minWidth ≤ Config.W ∧
      Fetches .at98 (atW 999 0) (w 999) ∧ quot (w 999).toInt 100 ∉ Config.opcodes :=
  ⟨by decide, fetches_atW_0 _, by decide⟩
theorem witness_RunawayIsASoftStop :
    (atW 4300 99).runState = .running ∧ Config.FetchLimit.value .at98 < (atW 4300 99).ic.toNat ∧
      Config.FetchLimit.value .at99 < (atW 4300 100).ic.toNat := by decide
theorem witness_ReadWaitsForAnAcceptedInput :
    WaitsForInput .at98 (atW 1000 0) ∧ acceptsRuntime 9999 = true ∧ acceptsRuntime 10000 = false :=
  ⟨⟨rfl, w 1000, 0, fetches_atW_0 _, by decide⟩, by decide, by decide⟩
theorem witness_StoppedStatesAreTerminal :
    ({ State.reset with runState := .halted } : State).runState = .halted ∧
      ({ State.reset with runState := .faulted } : State).runState = .faulted ∧
      HostEvent.offerProgram 4300 ≠ .reset := by decide

/-- One state for each cause a transaction can write, and for none. -/
theorem witness_EachStopCauseHasItsOneSource :
    Config.minWidth ≤ Config.W ∧
      (atW 4300 98).loadAddr ≤ 100 ∧ (atW 4300 98).stop.cause = .none ∧
      (after (transaction .at98 (atW 4000 0))).map (·.stop.cause) = some .none ∧
      (after (transaction .at98 (atW 4300 98))).map (·.stop.cause) = some .halt ∧
      (after (transaction .at98 (atW 4300 99))).map (·.stop.cause) = some .runaway ∧
      (after (transaction .at99 (atW 3200 99))).map (·.stop.cause) = some .divideByZero ∧
      (after (transaction .at98 (atW 4400 98))).map (·.stop.cause) = some .illegalOpcode ∧
      (after (transaction .at98 { State.reset with progIn := [1000], loadAddr := 100 })).map (·.stop.cause) =
        some .loadOverflow := by decide
theorem witness_NextFetchSeesTheStore :
    (running 5 0 [(0, w 2101)]).mem.wf = true ∧ decode (w 2101) = .ok (.store (0 + 1)) ∧
      (∃ t, transaction .at98 (running 5 0 [(0, w 2101)]) = .next t ∧ memGet t.mem 1 = 5) ∧
      decode (w 1098) = .ok (.read (97 + 1)) ∧
      ∃ t, transaction .at98 (fed [4300] (atW 1098 97)) = .next t ∧ memGet t.mem 98 = w 4300 :=
  ⟨by decide, by decide, ⟨_, rfl, by decide⟩, by decide, ⟨_, rfl, by decide⟩⟩
theorem witness_BranchToSelfRunsForEver :
    Config.minWidth ≤ Config.W ∧
      Fetches .at98 (atW 4098 98) (wrap (4000 + (atW 4098 98).ic.toNat)) ∧
      Fetches .at99 (atW 4099 99) (wrap (4000 + (atW 4099 99).ic.toNat)) :=
  ⟨by decide, ⟨rfl, by decide, by decide⟩, rfl, by decide, by decide⟩
theorem witness_BranchAboveTheLimitRunsAway :
    Config.minWidth ≤ Config.W ∧
      Fetches .at98 (atW 4099 0) (w 4099) ∧ decode (w 4099) = .ok (.branch 99) ∧
      Config.FetchLimit.value .at98 < 99 :=
  ⟨by decide, fetches_atW_0 _, by decide, by decide⟩
theorem witness_EngineReadsNeitherTraceNorLoader : (atW 1100 0).runState = .running := by decide
theorem witness_OffersCommuteWithSteps :
    HostEvent.offerRuntime 9999 ≠ .reset ∧ HostEvent.offerProgram 1000 ≠ .reset ∧
      (∃ t, transaction .at98 (atW 4300 0) = .next t) ∧
      ∃ t, transaction .at98 { State.reset with progIn := [1000] } = .next t :=
  ⟨by decide, by decide, ⟨_, rfl⟩, ⟨_, rfl⟩⟩
theorem witness_EngineRefinesThePseudocode :
    Config.minWidth ≤ Config.W ∧
      (fed [9999] (atW 1000 0)).runState = .running ∧ (fed [9999] (atW 1000 0)).mem.wf = true ∧
      ∀ v ∈ (fed [9999] (atW 1000 0)).rtQueue, acceptsRuntime v = true := by decide
theorem witness_AddressValidation : ((0 : Int) ≤ 99 ∧ (99 : Int) ≤ 99) ∧ ((-1 : Int) < 0 ∨ (99 : Int) < -1) ∧ (99 : Int) < 100 := by
  decide
theorem witness_CanonicalMemoryIsDeterminedByItsWords :
    Memory.wf [(0, w 4300), (99, w (-1))] = true ∧ Memory.wf ([] : Memory) = true ∧
      Memory.wf ([(0, 0)] : Memory) = false ∧ Memory.wf ([(100, 1)] : Memory) = false ∧
      Memory.wf ([(2, 1), (1, 1)] : Memory) = false := by decide
theorem witness_RuntimePortQueuesInOrder :
    ((-9999 : Int) ≤ -9999 ∧ (-9999 : Int) ≤ 9999) ∧ (-9999 : Int) ≤ 9999 ∧ (9999 : Int) ≤ 9999 := by decide
theorem witness_HostCannotWriteMemoryOrRegisters :
    HostEvent.offerProgram 4300 ≠ .reset ∧ HostEvent.offerRuntime 10000 ≠ .reset ∧ (atW 4300 0).runState ≠ .idle := by
  decide
theorem witness_MalformedInputIsDiscarded :
    ((10000 : Int) < -9999 ∨ (9999 : Int) < 10000) ∧ ((-10000 : Int) < -9999 ∨ (9999 : Int) < -10000) ∧
      acceptsProgramWord 1200 = false ∧ acceptsProgramWord (-99950) = false := by decide
theorem witness_ValidatorAcceptsExactlyTheseValues :
    [1000, 1199, 2000, 2199, 3000, 3399, 4000, 4399, -99999, -88888].map acceptsProgramWord = List.replicate 10 true ∧
      [999, 1200, 1999, 2200, 2999, 3400, 3999, 4400, -99998, -88887, 0, -1009].map acceptsProgramWord =
        List.replicate 12 false := by decide
theorem witness_FinalReportStaysUntilReset :
    HostEvent.reset ∉ [HostEvent.offerRuntime 7, .offerProgram 1000] ∧
      ({ State.reset with runState := .halted } : State).runState = .halted := by decide

/-- 0 and 10000 are rejected, a late -88888 is accepted (R240, R241). -/
theorem witness_LoaderLoadsTheAcceptedWords :
    [0, 4399, 10000, -88888].filter acceptsProgramWord = [4399, -88888] ∧ LoadableProgram [4399, -88888] :=
  ⟨by decide, by unfold LoadableProgram; decide⟩
theorem witness_HundredAndFirstWordOverflowsTheLoader :
    ((0 : Int) :: List.replicate 100 2000).filter acceptsProgramWord = List.replicate 100 2000 ∧
      LoadableProgram (List.replicate 100 2000) ∧ (List.replicate 100 (2000 : Int)).length = 100 ∧
      acceptsProgramWord (-88888) = true ∧ (-88888 : Int) ≠ Config.stopSentinel := by
  refine ⟨by simp [show acceptsProgramWord 0 = false by decide, show acceptsProgramWord 2000 = true by decide],
    ⟨fun v hv => ?_, by decide, by decide⟩, by decide, by decide, by decide⟩
  rw [List.eq_of_mem_replicate hv]
  decide

/-- A load with nothing stored meets the invariant, whatever is offered. -/
theorem inv_offered (limit : Config.FetchLimit) (p : List Int) : Inv limit { State.reset with progIn := p } :=
  ⟨rfl, by simp [State.reset, State.resetAt], Nat.zero_le _, show (0 : Word) = opcodeOf 0 by decide, show (0 : Word) = operandOf 0 by decide,
    fun _ => ⟨⟨rfl, rfl, rfl, rfl, rfl, rfl⟩, [], by unfold LoadableProgram; decide, rfl, rfl⟩,
    ⟨.inl rfl, rfl, rfl⟩⟩

/-- Both values that complete a load, in states that meet the invariant, and the step that is taken. -/
theorem witness_CompletedLoadStartsTheEngine :
    Inv .at98 { State.reset with progIn := [-99999] } ∧ CompletesLoad (-99999) { State.reset with progIn := [-99999] } ∧
      Inv .at99 { State.reset with progIn := [-88888] } ∧ CompletesLoad (-88888) { State.reset with progIn := [-88888] } ∧
      ∃ t, transaction .at98 { State.reset with progIn := [-99999] } = .next t ∧ t.runState = .running :=
  ⟨inv_offered _ _, .inl rfl, inv_offered _ _, .inr ⟨rfl, rfl⟩, _, rfl, by decide⟩
theorem witness_CompletedLoadStartsTheEngine_once :
    (atW 4300 98).runState ≠ .idle ∧ ∃ t, transaction .at98 (atW 4300 98) = .next t :=
  ⟨by decide, _, rfl⟩
theorem witness_RunsStartInLaunchStates :
    Inv .at98 { State.reset with progIn := [-99999] } ∧
      ∃ t, transaction .at98 { State.reset with progIn := [-99999] } = .next t ∧ t.runState = .running :=
  ⟨inv_offered _ _, _, rfl, by decide⟩

/-- A running state meets the invariant, and a step is taken in it. -/
theorem witness_StepKeepsTheInvariant :
    Config.minWidth ≤ Config.W ∧
      Inv Config.fetchLimit (atW 4300 98) ∧ ∃ t, step (atW 4300 98) = .next t :=
  ⟨by decide, ⟨by decide, by decide, by decide, by decide, by decide, fun h => absurd h (by decide),
    ⟨.inr rfl, rfl, rfl⟩⟩, _, rfl⟩

/-- A load in progress with one word stored meets the invariant of HostEventsKeepTheInvariant. -/
theorem witness_HostEventsKeepTheInvariant :
    Inv .at99 { State.reset with mem := [(0, w 4300)], loadAddr := 1 } :=
  ⟨by decide, by decide, by decide, by decide, by decide,
    fun _ => ⟨⟨rfl, rfl, rfl, rfl, rfl, rfl⟩, [4300], by unfold LoadableProgram; decide, rfl, by decide⟩,
    ⟨.inl rfl, rfl, rfl⟩⟩

/-- A reachable state other than reset: one program word loaded. -/
theorem witness_ReachableStatesMeetTheInvariant :
    Config.minWidth ≤ Config.W ∧
      ∃ t, transaction .at99 (hostEvent (.offerProgram 4300) State.reset) = .next t ∧ Reachable .at99 t ∧
      t.mem = [(0, w 4300)] :=
  ⟨by decide, _, rfl, .step (s := hostEvent (.offerProgram 4300) State.reset) (.host _ .powerOn) rfl, by decide⟩

end Sys2Proof.Tests
end

section
/-! PROOFS. Stopped states (10_state.md R30, 20_memory.md R65): no transaction is taken in them, and a host event other than
reset reaches only the two input queues. -/

namespace Sys2Proof.Machine

variable {W : Nat}

/-- In `HALTED` and `FAULTED` no step is enabled, whatever else the state holds (R30). -/
theorem transaction_stopped {s : State W} (limit : Config.FetchLimit) (h : s.runState = .halted ∨ s.runState = .faulted) :
    transaction limit s = .fault .stopped := by
  rcases h with h | h <;> simp [transaction, h]

/-- Every host event but reset changes at most the two queues of offered values (R250). -/
theorem hostEvent_changes_queues_only {e : HostEvent} (he : e ≠ .reset) (s : State W) :
    ∃ p q, hostEvent e s = { s with progIn := p, rtQueue := q } := by
  cases e with
  | reset => exact absurd rfl he
  | offerProgram v => exact ⟨s.progIn ++ [v], s.rtQueue, rfl⟩
  | offerRuntime v =>
    by_cases hv : acceptsRuntime v = true
    · exact ⟨s.progIn, s.rtQueue ++ [v], if_pos hv⟩
    · exact ⟨s.progIn, s.rtQueue, if_neg hv⟩

/-- Settles O33: a stopped state takes no transaction, and what a host event other than reset can change is neither
memory nor the run state nor the stop record. -/
theorem stoppedStatesAreTerminal : Obligations.StoppedStatesAreTerminal := by
  intro W s h
  refine ⟨fun limit => transaction_stopped limit h, fun e he => ?_⟩
  obtain ⟨p, q, hpq⟩ := hostEvent_changes_queues_only he s
  rw [hpq]
  exact ⟨rfl, rfl, rfl⟩

end Sys2Proof.Machine
end

section
/-! PROOFS. Decode and encode (30_encoding.md R70 to R78): at every legal width neither decode register wraps, so a word
decodes to an instruction exactly when its integer is the operation code times 100 plus a two-digit operand. -/

namespace Sys2Proof

variable {W : Nat}

theorem wellFormed_iff (i : Instr) : i.wellFormed = true ↔ i.operand ≤ 99 := by
  simp [Instr.wellFormed]

/-- The recognized operation codes lie in 10 to 43 (R75). -/
theorem opcode_bounds (i : Instr) : 10 ≤ i.opcode ∧ i.opcode ≤ 43 := by
  cases i <;> simp [Instr.opcode]

/-- Division by 100 takes an operation code and a two-digit operand apart again. -/
theorem quot_rem_100_unique {v c d : Int} (hc : 0 ≤ c) (hd : 0 ≤ d) (hd' : d ≤ 99) (hv : v = c * 100 + d) :
    quot v 100 = c ∧ rem v 100 = d := by
  obtain ⟨hsplit, -, hhi, hnonneg, -⟩ := quot_rem_100 v
  have hrem : 0 ≤ rem v 100 := hnonneg (by omega)
  omega

/-- `OPC` is the quotient of the word by 100: it does not wrap (R28, R72). -/
theorem toInt_opcodeOf (hW : Config.minWidth ≤ W) (w : Word W) : (opcodeOf w).toInt = quot w.toInt 100 := by
  have hlo : -(2 : Int) ^ (W - 1) ≤ w.toInt := BitVec.le_toInt w
  have hhi : w.toInt < (2 : Int) ^ (W - 1) := BitVec.toInt_lt
  obtain ⟨hsplit, hrlo, hrhi, hnonneg, hnonpos⟩ := quot_rem_100 w.toInt
  exact toInt_wrap_of_fits (Nat.lt_of_lt_of_le (by decide) hW) (by omega) (by omega)

/-- `OPD` is the remainder of the word by 100: it does not wrap (R29, R72). -/
theorem toInt_operandOf (hW : Config.minWidth ≤ W) (w : Word W) : (operandOf w).toInt = rem w.toInt 100 := by
  obtain ⟨-, hlo, hhi, -, -⟩ := quot_rem_100 w.toInt
  exact toInt_wrap_of_bounds hW (by omega) (by omega)

/-- The decoder dispatches on the exact quotient and remainder of the word by 100 (R72). -/
theorem decode_eq_select (hW : Config.minWidth ≤ W) (w : Word W) :
    decode w = select (quot w.toInt 100) (rem w.toInt 100) := by
  rw [decode, toInt_opcodeOf hW, toInt_operandOf hW]

/-- What an instruction's word says of the instruction: its code and operand are the word's quotient and remainder by
100. A recognized code is positive, so the remainder is never negative (R29). -/
theorem opcode_operand_of_decode (hW : Config.minWidth ≤ W) {w : Word W} {i : Instr} (h : decode w = .ok i) :
    i.opcode = quot w.toInt 100 ∧ (i.operand : Int) = rem w.toInt 100 := by
  rw [decode_eq_select hW, select_ok_iff] at h
  obtain ⟨hcode, hoperand⟩ := h
  have hcode_pos := (opcode_bounds i).1
  obtain ⟨hsplit, hlo, -, hnonneg, -⟩ := quot_rem_100 w.toInt
  have hrem : 0 ≤ rem w.toInt 100 := hnonneg (by omega)
  omega

/-- A word decodes to an instruction exactly when the instruction is well formed and the word's integer is the
operation code times 100 plus the operand (R70, R78). -/
theorem decode_ok_iff (hW : Config.minWidth ≤ W) (w : Word W) (i : Instr) :
    decode w = .ok i ↔ i.wellFormed = true ∧ w.toInt = i.opcode * 100 + i.operand := by
  rw [wellFormed_iff]
  constructor
  · intro h
    obtain ⟨hcode, hoperand⟩ := opcode_operand_of_decode hW h
    obtain ⟨hsplit, -, hhi, -, -⟩ := quot_rem_100 w.toInt
    omega
  · rintro ⟨hwf, hw⟩
    have hcode_pos := (opcode_bounds i).1
    obtain ⟨hq, hr⟩ := quot_rem_100_unique (by omega) (by omega) (by omega) hw
    rw [decode_eq_select hW, hq, hr]
    exact select_opcode i

/-- Decoding gives back every well-formed instruction that was encoded (R78). -/
theorem decode_encode (hW : Config.minWidth ≤ W) {i : Instr} (h : i.wellFormed = true) :
    decode (encode i : Word W) = .ok i := by
  obtain ⟨hlo, hhi⟩ := opcode_bounds i
  obtain ⟨hword, -, -⟩ := Laws.EncodedRange.of_opcode_bounds hlo hhi W hW h
  exact (decode_ok_iff hW _ i).2 ⟨h, hword⟩

/-- Encoding gives back every word that was decoded to an instruction (R78). -/
theorem encode_of_decode (hW : Config.minWidth ≤ W) {w : Word W} {i : Instr} (h : decode w = .ok i) :
    encode i = w := by
  obtain ⟨-, hw⟩ := (decode_ok_iff hW w i).1 h
  rw [encode, ← hw, wrap_toInt]

/-- Every word of a recognized operation code decodes to an instruction (R75). -/
theorem exists_decode_of_mem (hW : Config.minWidth ≤ W) {w : Word W} (h : quot w.toInt 100 ∈ Config.opcodes) :
    ∃ i, decode w = .ok i := by
  obtain ⟨i, hi, -, -⟩ := select_of_mem h (rem w.toInt 100)
  exact ⟨i, by rw [decode_eq_select hW, hi]⟩

/-- Settles O8: a word and its instruction determine each other by `decode_ok_iff`. -/
theorem decodeEncodeRoundTrip : Obligations.DecodeEncodeRoundTrip := by
  intro W hW
  refine ⟨fun i h => decode_encode hW h, fun w i h => ?_, fun w h => exists_decode_of_mem hW h⟩
  obtain ⟨hwf, -⟩ := (decode_ok_iff hW w i).1 h
  obtain ⟨hcode, hoperand⟩ := opcode_operand_of_decode hW h
  exact ⟨hwf, hcode, hoperand, encode_of_decode hW h⟩

end Sys2Proof
end

section
/-! PROOFS. What a step does to the instruction counter (40_engine.md R105): an instruction that raises leaves it, every other
one moves it to `counterAfter`. -/

namespace Sys2Proof.Machine

variable {W : Nat}

/-- Where the word fetched decodes to an instruction, the step is that instruction's meaning on the state after the fetch
and decode writes (R100, R104). -/
theorem transaction_of_instruction {limit : Config.FetchLimit} {s : State W} {w : Word W} {i : Instr}
    (hfetch : Fetches limit s w) (hdecode : decode w = .ok i) :
    transaction limit s = execute i (fetchDecode w s) := by
  rw [transaction_of_fetches hfetch, dispatch_fetchDecode, hdecode]

/-- The counter of every state in which a fetch happens has room for the advance (R24, R105). -/
theorem toNat_counter_add_one {c : Counter} (h : c.toNat ≤ 99) : (c + 1).toNat = c.toNat + 1 := by
  bv_omega

/-- Every two-digit operand is a value of the counter (R160). -/
theorem toNat_counter_of_operand {aa : Nat} (h : aa ≤ 99) : (BitVec.ofNat 7 aa).toNat = aa :=
  Nat.mod_eq_of_lt (by omega)

/-- The value of `IC` after an instruction that does not raise (R105, R160 to R162). -/
def counterAfter (i : Instr) (s : State W) : Nat :=
  match i with
  | .branch aa => aa
  | .branchneg aa => if s.acc.toInt < 0 then aa else s.ic.toNat + 1
  | .branchzero aa => if s.acc.toInt = 0 then aa else s.ic.toNat + 1
  | .read _ | .write _ | .load _ | .store _ | .add _ | .subtract _ | .divide _ | .multiply _ | .halt _ =>
    s.ic.toNat + 1

/-- The counter rule for one pair of states: `IC` stays where the step ends in a fatal condition and is `n` where it does
not. -/
def StaysOrMovesTo (s : State W) (n : Nat) (t : State W) : Prop :=
  (t.runState = .faulted → t.ic = s.ic) ∧ (t.runState ≠ .faulted → t.ic.toNat = n)

/-- A fatal entry leaves the counter (R201). -/
theorem staysOrMovesTo_of_raise {s t : State W} {n : Nat} {c : StopCause} {a : Int} {u : Word W}
    (h : Host.Outcome.next (φ := Fault) (ρ := Refusal) (stopWith .faulted c a u s) = .next t) :
    StaysOrMovesTo s n t := by
  cases h
  exact ⟨fun _ => rfl, fun hne => absurd rfl hne⟩

/-- A completed instruction moves the counter as its last effect says. -/
theorem staysOrMovesTo_of_next {s t u : State W} {n : Nat}
    (h : Host.Outcome.next (φ := Fault) (ρ := Refusal) u = .next t) (hrun : u.runState ≠ .faulted) (hic : u.ic.toNat = n) :
    StaysOrMovesTo s n t := by
  cases h
  exact ⟨fun hf => absurd hf hrun, fun _ => hic⟩

/-- An instruction with a memory operand raises AddressFault or goes on, so it keeps the counter rule when its rest does. -/
theorem staysOrMovesTo_of_operand {s t : State W} {n aa : Nat} {u : Word W} {o rest : Host.Outcome (State W) Fault Refusal}
    (ho : o = if aa < 100 then rest else .next (stopWith .faulted .addressFault aa u s)) (h : o = .next t)
    (hrest : rest = .next t → StaysOrMovesTo s n t) :
    StaysOrMovesTo s n t := by
  rw [ho] at h
  split at h
  · exact hrest h
  · exact staysOrMovesTo_of_raise h

/-- Every instruction of a running engine obeys the counter rule, from every counter value at which a fetch happens. -/
theorem execute_staysOrMovesTo {i : Instr} {s t : State W} (hrun : s.runState ≠ .faulted) (hic : s.ic.toNat ≤ 99)
    (hoperand : i.operand ≤ 99) (h : execute i s = .next t) : StaysOrMovesTo s (counterAfter i s) t := by
  have hnext : (s.ic + 1).toNat = s.ic.toNat + 1 := toNat_counter_add_one hic
  have htarget : (BitVec.ofNat 7 i.operand).toNat = i.operand := toNat_counter_of_operand hoperand
  cases i with
  | read aa =>
    rw [execute_read_eq] at h
    split at h
    · cases h
    · exact staysOrMovesTo_of_operand rfl h (staysOrMovesTo_of_next · hrun hnext)
  | write aa => exact staysOrMovesTo_of_operand (execute_write_eq aa s) h (staysOrMovesTo_of_next · hrun hnext)
  | load aa => exact staysOrMovesTo_of_operand (execute_load_eq aa s) h (staysOrMovesTo_of_next · hrun hnext)
  | store aa => exact staysOrMovesTo_of_operand (execute_store_eq aa s) h (staysOrMovesTo_of_next · hrun hnext)
  | add aa => exact staysOrMovesTo_of_operand (execute_add_eq aa s) h (staysOrMovesTo_of_next · hrun hnext)
  | subtract aa => exact staysOrMovesTo_of_operand (execute_subtract_eq aa s) h (staysOrMovesTo_of_next · hrun hnext)
  | multiply aa => exact staysOrMovesTo_of_operand (execute_multiply_eq aa s) h (staysOrMovesTo_of_next · hrun hnext)
  | divide aa =>
    refine staysOrMovesTo_of_operand (execute_divide_eq aa s) h (fun hquot => ?_)
    split at hquot
    · exact staysOrMovesTo_of_raise hquot
    · exact staysOrMovesTo_of_next hquot hrun hnext
  | branch aa => exact staysOrMovesTo_of_next h hrun htarget
  | branchneg aa =>
    rw [execute_branchneg_eq] at h
    exact staysOrMovesTo_of_next h hrun <| (apply_ite BitVec.toNat _ _ _).trans (if_congr Iff.rfl htarget hnext)
  | branchzero aa =>
    rw [execute_branchzero_eq] at h
    exact staysOrMovesTo_of_next h hrun <| (apply_ite BitVec.toNat _ _ _).trans (if_congr Iff.rfl htarget hnext)
  | halt aa => exact staysOrMovesTo_of_next h (by simp) hnext

/-- Settles O28: the step is the decoded instruction's, whose operand has two digits, and the guard bounds the counter. -/
theorem counterAdvanceRule : Obligations.CounterAdvanceRule := by
  intro W limit s t w i hW hfetch hdecode h
  rw [transaction_of_instruction hfetch hdecode] at h
  have hlimit := hfetch.inLimit
  have hic : s.ic.toNat ≤ 99 := hlimit.trans (limit_le limit)
  have hrun : s.runState ≠ .faulted := by simp [hfetch.running]
  obtain ⟨hwf, -⟩ := (decode_ok_iff hW w i).1 hdecode
  obtain ⟨hstays, hmoves⟩ :=
    execute_staysOrMovesTo (s := fetchDecode w s) hrun hic ((wellFormed_iff i).1 hwf) h
  refine ⟨hstays, fun hne => ?_, by omega⟩
  have hcounter := hmoves hne
  cases i <;> exact hcounter

end Sys2Proof.Machine
end

section
/-! PROOFS. A branch to its own address (40_engine.md R108): after one step the state is a fixed point of the step. -/

namespace Sys2Proof.Machine

variable {W : Nat}

/-- From a state that one step leaves as it is, any number of steps leaves it as it is. -/
theorem run_of_fixed {limit : Config.FetchLimit} {t : State W} (h : transaction limit t = .next t) (n : Nat) :
    (machine W limit).run n t = .next t := by
  induction n with
  | zero => rfl
  | succ n ih => exact (run_succ n h).trans ih

/-- The decode registers hold the code and the operand of the instruction in `IR` (R72). -/
theorem fetchDecode_of_decode (hW : Config.minWidth ≤ W) {w : Word W} {i : Instr} (h : decode w = .ok i) (s : State W) :
    fetchDecode w s = { s with ir := w, opc := wrap i.opcode, opd := wrap i.operand } := by
  obtain ⟨hcode, hoperand⟩ := opcode_operand_of_decode hW h
  rw [fetchDecode, opcodeOf, operandOf, hcode, hoperand]

/-- The words 40aa (R160). -/
theorem encode_branch (aa : Nat) : (encode (.branch aa) : Word W) = wrap (4000 + aa) := by
  simp [encode, Instr.opcode, Instr.operand]

/-- The fetch and decode writes do not reach what the fetch reads, so the next step at the same `IC` fetches again. -/
theorem Fetches.fetchDecode {limit : Config.FetchLimit} {s : State W} {w : Word W} (h : Fetches limit s w) (u : Word W) :
    Fetches limit (fetchDecode u s) w :=
  ⟨h.running, h.inLimit, h.fetched⟩

/-- A jump to the address in `IC` changes nothing. -/
theorem jump_ic_self (s : State W) : jump s.ic.toNat s = s := by
  simp [jump]

/-- A step of a branch to its own address makes the fetch and decode writes and nothing else (R108, R160). -/
theorem transaction_branch_self {limit : Config.FetchLimit} {s : State W} {w : Word W} (hfetch : Fetches limit s w)
    (hdecode : decode w = .ok (.branch s.ic.toNat)) : transaction limit s = .next (fetchDecode w s) := by
  rw [transaction_of_instruction hfetch hdecode, execute_branch_eq]
  exact congrArg _ (jump_ic_self (fetchDecode w s))

/-- The first step of a branch to its own address leads to a fixed point of the step, which every later one keeps. -/
theorem run_branch_self {limit : Config.FetchLimit} {s : State W} {w : Word W} (hfetch : Fetches limit s w)
    (hdecode : decode w = .ok (.branch s.ic.toNat)) (n : Nat) :
    (machine W limit).run (n + 1) s = .next (fetchDecode w s) := by
  have hfixed : transaction limit (fetchDecode w s) = .next (fetchDecode w s) :=
    transaction_branch_self (hfetch.fetchDecode w) hdecode
  rw [run_succ n (transaction_branch_self hfetch hdecode), run_of_fixed hfixed]

/-- Settles O37: the word at `IC` is the BRANCH to `IC`, whose code and operand the decode registers then hold. -/
theorem branchToSelfRunsForEver : Obligations.BranchToSelfRunsForEver := by
  intro W n limit s hW hfetch
  have hic : s.ic.toNat ≤ 99 := hfetch.inLimit.trans (limit_le limit)
  have hdecode : decode (wrap (4000 + s.ic.toNat) : Word W) = .ok (.branch s.ic.toNat) := by
    rw [← encode_branch]
    exact decode_encode hW ((wellFormed_iff _).2 hic)
  rw [run_branch_self hfetch hdecode, fetchDecode_of_decode hW hdecode]
  simp [Instr.opcode, Instr.operand, wrap]

end Sys2Proof.Machine
end

section
/-! PROOFS. The input/output instructions (41_io.md R122, R123): the words that decode to them, and their whole next state at
an operand that exists. -/

namespace Sys2Proof.Machine

variable {W : Nat}

/-- The word of an operation code and a two-digit operand, written as a number, decodes to its instruction (R70, R75). -/
theorem decode_wrap {v : Int} {i : Instr} (hW : Config.minWidth ≤ W) (hoperand : i.operand ≤ 99)
    (hv : v = i.opcode * 100 + i.operand) : decode (wrap v : Word W) = .ok i := by
  rw [hv]
  exact decode_encode hW ((wellFormed_iff i).2 hoperand)

/-- READ takes no step while the queue is empty (R107, R122). -/
theorem execute_read_of_empty (aa : Nat) {s : State W} (h : s.rtQueue = []) :
    execute (.read aa) s = .fault .waitingForRuntimeInput := by
  rw [execute_read_eq, h]

/-- READ with an input queued stores the oldest one and removes it from the queue (R122). -/
theorem execute_read_of_cons {aa : Nat} (haa : aa ≤ 99) {s : State W} {v : Int} {q : List Int} (h : s.rtQueue = v :: q) :
    execute (.read aa) s = .next { s with mem := memSet s.mem aa (wrap v), rtQueue := q, ic := s.ic + 1 } := by
  rw [execute_read_eq, h]
  simp only [if_pos (Nat.lt_succ_of_le haa), advance, dropInput, List.tail_cons]

/-- WRITE appends the word at its operand to the output trace (R123). -/
theorem execute_write_of_le {aa : Nat} (haa : aa ≤ 99) (s : State W) :
    execute (.write aa) s = .next { s with outTrace := s.outTrace ++ [memGet s.mem aa], ic := s.ic + 1 } := by
  rw [execute_write_eq, if_pos (Nat.lt_succ_of_le haa)]
  rfl

/-- A store at an instruction's operand is seen at its data address and nowhere else (R54, R60). -/
theorem memGet_memSet_dataAddress {m : Memory W} (hm : m.wf = true) (aa : Nat) (v : Word W) (b : Nat) :
    memGet (memSet m aa v) b = if (b : Int) = dataAddress aa then v else memGet m b := by
  rw [memGet_memSet hm, dataAddress]
  exact if_congr Int.natCast_inj.symm rfl rfl

/-- An accepted runtime input is a word at every legal width (R4, R120). -/
theorem toInt_wrap_of_acceptsRuntime (hW : Config.minWidth ≤ W) {v : Int} (h : acceptsRuntime v = true) :
    (wrap v : Word W).toInt = v := by
  obtain ⟨hlo, hhi⟩ := (acceptsRuntime_iff v).1 h
  exact toInt_wrap_of_bounds hW (by omega) (by omega)

/-- Settles O9: READ by the state of the queue; its store is one validated write, and an accepted value fits a word. -/
theorem readStoresTheOldestInput : Obligations.ReadStoresTheOldestInput := by
  refine fun aa haa => ⟨fun W s hW => ⟨decode_wrap hW haa rfl, execute_read_of_empty aa, fun v q h => ?_⟩, fun s => ?_⟩
  · exact ⟨execute_read_of_cons haa h, fun hm => memGet_memSet_dataAddress hm aa (wrap v),
      toInt_wrap_of_acceptsRuntime hW⟩
  · rw [exec_eq_execute]
    exact ⟨execute_read_of_empty aa, fun v q h => execute_read_of_cons haa h⟩

/-- Settles O10: WRITE in every state, at an operand that exists. -/
theorem writeEmitsTheWord : Obligations.WriteEmitsTheWord := by
  refine fun aa haa => ⟨fun W s hW => ⟨decode_wrap hW haa rfl, execute_write_of_le haa s⟩, fun s => ?_⟩
  rw [exec_eq_execute]
  exact execute_write_of_le haa s

end Sys2Proof.Machine
end

section
/-! PROOFS. The load and store instructions (42_load_store.md R130, R131): their whole next state at an operand that
exists. -/

namespace Sys2Proof.Machine

variable {W : Nat}

/-- LOAD copies the word at its operand into `ACC` (R130). -/
theorem execute_load_of_le {aa : Nat} (haa : aa ≤ 99) (s : State W) :
    execute (.load aa) s = .next { s with acc := memGet s.mem aa, ic := s.ic + 1 } := by
  rw [execute_load_eq, if_pos (Nat.lt_succ_of_le haa)]
  rfl

/-- STORE copies `ACC` to its operand's word, with no clamping or narrowing (R131). -/
theorem execute_store_of_le {aa : Nat} (haa : aa ≤ 99) (s : State W) :
    execute (.store aa) s = .next { s with mem := memSet s.mem aa s.acc, ic := s.ic + 1 } := by
  rw [execute_store_eq, if_pos (Nat.lt_succ_of_le haa)]
  rfl

/-- Settles O11: LOAD in every state, at an operand that exists. -/
theorem loadCopiesTheWord : Obligations.LoadCopiesTheWord := by
  refine fun aa haa => ⟨fun W s hW => ⟨decode_wrap hW haa rfl, execute_load_of_le haa s⟩, fun s => ?_⟩
  rw [exec_eq_execute]
  exact execute_load_of_le haa s

/-- Settles O12: STORE is one validated write at an operand that exists, seen at its data address and nowhere else. -/
theorem storeCopiesTheAccumulator : Obligations.StoreCopiesTheAccumulator := by
  refine fun aa haa => ⟨fun W s hW => ⟨decode_wrap hW haa rfl, execute_store_of_le haa s, fun hm => ?_⟩, fun s => ?_⟩
  · exact memGet_memSet_dataAddress hm aa s.acc
  · rw [exec_eq_execute]
    exact execute_store_of_le haa s

end Sys2Proof.Machine
end

section
/-! PROOFS. The arithmetic instructions (43_arithmetic.md R150 to R153, R146): their whole next state at an operand that
exists. -/

namespace Sys2Proof.Machine

variable {W : Nat}

/-- ADD puts the wrapped sum of `ACC` and its operand's word into `ACC` (R150). -/
theorem execute_add_of_le {aa : Nat} (haa : aa ≤ 99) (s : State W) :
    execute (.add aa) s = .next { s with acc := wrap (s.acc.toInt + (memGet s.mem aa).toInt), ic := s.ic + 1 } :=
  (execute_add_eq aa s).trans (if_pos (Nat.lt_succ_of_le haa))

/-- SUBTRACT puts the wrapped difference into `ACC`: `ACC` minus its operand's word (R151). -/
theorem execute_subtract_of_le {aa : Nat} (haa : aa ≤ 99) (s : State W) :
    execute (.subtract aa) s = .next { s with acc := wrap (s.acc.toInt - (memGet s.mem aa).toInt), ic := s.ic + 1 } :=
  (execute_subtract_eq aa s).trans (if_pos (Nat.lt_succ_of_le haa))

/-- MULTIPLY puts the wrapped product of `ACC` and its operand's word into `ACC` (R153). -/
theorem execute_multiply_of_le {aa : Nat} (haa : aa ≤ 99) (s : State W) :
    execute (.multiply aa) s = .next { s with acc := wrap (s.acc.toInt * (memGet s.mem aa).toInt), ic := s.ic + 1 } :=
  (execute_multiply_eq aa s).trans (if_pos (Nat.lt_succ_of_le haa))

/-- DIVIDE by a word other than 0 puts the wrapped quotient into `ACC` (R152). -/
theorem execute_divide_of_ne_zero {aa : Nat} (haa : aa ≤ 99) {s : State W} (hb : memGet s.mem aa ≠ 0) :
    execute (.divide aa) s =
      .next { s with acc := wrap (quot s.acc.toInt (memGet s.mem aa).toInt), ic := s.ic + 1 } := by
  rw [execute_divide_eq, if_pos (Nat.lt_succ_of_le haa), if_neg hb]
  rfl

/-- DIVIDE by 0 stops the engine and writes nothing but the run state and the stop record (R146). -/
theorem execute_divide_of_eq_zero {aa : Nat} (haa : aa ≤ 99) {s : State W} (hb : memGet s.mem aa = 0) :
    execute (.divide aa) s = .next { s with runState := .faulted, stop := ⟨.divideByZero, s.ic.toNat, s.ir⟩ } := by
  rw [execute_divide_eq, if_pos (Nat.lt_succ_of_le haa), if_pos hb]
  rfl

/-- Settles O15: DIVIDE by whether the divisor at its operand is 0. -/
theorem divideTruncatesOrStops : Obligations.DivideTruncatesOrStops := by
  refine fun aa haa => ⟨fun W s hW => ⟨decode_wrap hW haa rfl, ?_, ?_⟩, fun s => ?_⟩
  · exact execute_divide_of_ne_zero haa
  · exact execute_divide_of_eq_zero haa
  · rw [exec_eq_execute]
    exact ⟨execute_divide_of_ne_zero haa, execute_divide_of_eq_zero haa⟩

/-- Settles O13: ADD in every state, at an operand that exists. -/
theorem addWrapsTheSum : Obligations.AddWrapsTheSum := by
  refine fun aa haa => ⟨fun W s hW => ⟨decode_wrap hW haa rfl, execute_add_of_le haa s⟩, fun s => ?_⟩
  rw [exec_eq_execute]
  exact execute_add_of_le haa s

/-- Settles O14: SUBTRACT in every state, at an operand that exists. -/
theorem subtractWrapsTheDifference : Obligations.SubtractWrapsTheDifference := by
  refine fun aa haa => ⟨fun W s hW => ⟨decode_wrap hW haa rfl, execute_subtract_of_le haa s⟩, fun s => ?_⟩
  rw [exec_eq_execute]
  exact execute_subtract_of_le haa s

/-- Settles O16: MULTIPLY in every state, at an operand that exists. -/
theorem multiplyWrapsTheProduct : Obligations.MultiplyWrapsTheProduct := by
  refine fun aa haa => ⟨fun W s hW => ⟨decode_wrap hW haa rfl, execute_multiply_of_le haa s⟩, fun s => ?_⟩
  rw [exec_eq_execute]
  exact execute_multiply_of_le haa s

end Sys2Proof.Machine
end

section
/-! PROOFS. The control instructions (44_control.md R160 to R164, R170): each conditional branch by its test of `ACC`, and
the stop of HALT. -/

namespace Sys2Proof.Machine

variable {W : Nat}

/-- BRANCHNEG is taken when `ACC` is negative (R161). -/
theorem execute_branchneg_of_neg (aa : Nat) {s : State W} (h : s.acc.toInt < 0) :
    execute (.branchneg aa) s = .next { s with ic := BitVec.ofNat 7 aa } := by
  rw [execute_branchneg_eq, if_pos h]

/-- BRANCHNEG falls through when `ACC` is not negative (R161). -/
theorem execute_branchneg_of_nonneg (aa : Nat) {s : State W} (h : 0 ≤ s.acc.toInt) :
    execute (.branchneg aa) s = .next { s with ic := s.ic + 1 } := by
  rw [execute_branchneg_eq, if_neg h.not_gt]

/-- The signed value of `ACC` is 0 for the zero word only (R162, R164). -/
theorem acc_toInt_eq_zero_iff (s : State W) : s.acc.toInt = 0 ↔ s.acc = 0 := by
  rw [← BitVec.toInt_inj]
  simp

/-- BRANCHZERO is taken when `ACC` is the zero word (R162). -/
theorem execute_branchzero_of_eq_zero (aa : Nat) {s : State W} (h : s.acc = 0) :
    execute (.branchzero aa) s = .next { s with ic := BitVec.ofNat 7 aa } := by
  rw [execute_branchzero_eq, if_pos ((acc_toInt_eq_zero_iff s).2 h)]

/-- BRANCHZERO falls through when `ACC` is any other word (R162). -/
theorem execute_branchzero_of_ne_zero (aa : Nat) {s : State W} (h : s.acc ≠ 0) :
    execute (.branchzero aa) s = .next { s with ic := s.ic + 1 } := by
  rw [execute_branchzero_eq, if_neg (mt (acc_toInt_eq_zero_iff s).1 h)]

/-- HALT stops the engine, records where and by which word, and advances the counter; the state it leaves takes no
transaction (R170, R30). -/
theorem execute_halt_stops (aa : Nat) (s : State W) :
    ∃ t, execute (.halt aa) s = .next t ∧
      t = { s with runState := .halted, stop := ⟨.halt, s.ic.toNat, s.ir⟩, ic := s.ic + 1 } ∧
      ∀ limit, transaction limit t = .fault .stopped :=
  ⟨_, execute_halt_eq aa s, rfl, fun limit => transaction_stopped limit (.inl rfl)⟩

/-- Settles O22: what a conditional branch does to the state is a function of its `ACC` and `IC`, with the memory carried
along. -/
theorem conditionalBranchesReadOnlyTheAccumulator : Obligations.ConditionalBranchesReadOnlyTheAccumulator := by
  rintro W aa s t i - (rfl | rfl) h
  · rw [execute_branchneg_eq] at h
    cases h
    exact ⟨fun m => execute_branchneg_eq aa { s with mem := m }, fun _ => rfl, nofun⟩
  · rw [execute_branchzero_eq] at h
    cases h
    exact ⟨fun m => execute_branchzero_eq aa { s with mem := m }, nofun, fun _ => rfl⟩

/-- Settles O17: BRANCH in every state; a two-digit operand is a value of the counter. -/
theorem branchReplacesTheCounter : Obligations.BranchReplacesTheCounter := by
  refine fun aa haa => ⟨fun W s hW => ⟨decode_wrap hW haa rfl, execute_branch_eq aa s⟩, fun s => ?_,
    toNat_counter_of_operand haa⟩
  rw [exec_eq_execute]
  exact execute_branch_eq aa s

/-- Settles O18: BRANCHNEG by the sign of `ACC`. -/
theorem branchnegTestsForNegative : Obligations.BranchnegTestsForNegative := by
  refine fun aa haa => ⟨fun W s hW => ⟨decode_wrap hW haa rfl, ?_, ?_⟩, fun s => ?_, toNat_counter_of_operand haa⟩
  · exact execute_branchneg_of_neg aa
  · exact execute_branchneg_of_nonneg aa
  · rw [exec_eq_execute]
    exact ⟨execute_branchneg_of_neg aa, execute_branchneg_of_nonneg aa⟩

/-- Settles O19: BRANCHZERO by whether `ACC` is 0. -/
theorem branchzeroTestsForZero : Obligations.BranchzeroTestsForZero := by
  refine fun aa haa => ⟨fun W s hW => ⟨decode_wrap hW haa rfl, ?_, ?_⟩, fun s => ?_, toNat_counter_of_operand haa⟩
  · exact execute_branchzero_of_eq_zero aa
  · exact execute_branchzero_of_ne_zero aa
  · rw [exec_eq_execute]
    exact ⟨execute_branchzero_of_eq_zero aa, execute_branchzero_of_ne_zero aa⟩

/-- Settles O20: HALT in every state, whatever the operand. -/
theorem haltStopsTheEngine : Obligations.HaltStopsTheEngine := by
  refine fun aa haa => ⟨fun W s hW => ⟨decode_wrap hW haa rfl, execute_halt_stops aa s⟩, fun s => ?_⟩
  rw [exec_eq_execute]
  exact execute_halt_stops aa s

end Sys2Proof.Machine
end

section
/-! PROOFS. Exceptions (60_exceptions.md R203, R206): a result that does not fit wraps and records nothing, and dispatch
stops the engine at an unrecognized operation code. -/

namespace Sys2Proof.Machine

variable {W : Nat}

/-- Wrapping changes a value by a multiple of 2^w (R11). -/
theorem two_pow_dvd_toInt_wrap_sub {w : Nat} (v : Int) : (2 : Int) ^ w ∣ (wrap v : BitVec w).toInt - v := by
  rw [toInt_wrap]
  exact_mod_cast Int.dvd_bmod_sub_self

/-- The instruction answers a next state with the run state and the stop record unchanged, and `ACC` the exact result up
to a multiple of 2^W (R142, R206). -/
def WrapsAndContinues (i : Instr) (result : Int) (s : State W) : Prop :=
  ∃ t, execute i s = .next t ∧ t.runState = s.runState ∧ t.stop = s.stop ∧ (2 : Int) ^ W ∣ t.acc.toInt - result

/-- An instruction that writes its wrapped result into `ACC` and advances the counter does no more than that. -/
theorem wrapsAndContinues_of_execute {i : Instr} {result : Int} {s : State W}
    (h : execute i s = .next { s with acc := wrap result, ic := s.ic + 1 }) : WrapsAndContinues i result s :=
  ⟨_, h, rfl, rfl, two_pow_dvd_toInt_wrap_sub result⟩

/-- Settles O21: each of the four operations, the divisor 0 aside, writes its wrapped exact result and advances. -/
theorem overflowWrapsAndTheEngineContinues : Obligations.OverflowWrapsAndTheEngineContinues := by
  rintro W aa s haa i result (hmem | ⟨rfl, hb, rfl⟩) <;> apply wrapsAndContinues_of_execute
  · simp only [List.mem_cons, List.not_mem_nil, or_false, Prod.mk.injEq] at hmem
    obtain ⟨rfl, rfl⟩ | ⟨rfl, rfl⟩ | ⟨rfl, rfl⟩ := hmem
    · exact execute_add_of_le haa s
    · exact execute_subtract_of_le haa s
    · exact execute_multiply_of_le haa s
  · exact execute_divide_of_ne_zero haa hb

/-- A fetched word whose code in `OPC` is not recognized raises IllegalOpcode after the fetch and decode writes (R104,
R203). -/
theorem transaction_of_illegal_opcode {limit : Config.FetchLimit} {s : State W} {w : Word W} (hfetch : Fetches limit s w)
    (hcode : (opcodeOf w).toInt ∉ Config.opcodes) :
    transaction limit s = .next (stopWith .faulted .illegalOpcode (pcAddr s) w (fetchDecode w s)) := by
  rw [transaction_of_fetches hfetch, dispatch_fetchDecode, decode_of_not_mem hcode]

/-- Settles O30: at every legal width `OPC` holds the exact quotient of the word by 100, so dispatch rejects the word. -/
theorem illegalOpcodeStopsTheEngine : Obligations.IllegalOpcodeStopsTheEngine := by
  intro W limit s w hW hfetch hcode
  rw [← toInt_opcodeOf hW] at hcode
  exact transaction_of_illegal_opcode hfetch hcode

end Sys2Proof.Machine
end

section
/-! PROOFS. Integers and the ALU (00_scope.md R11, R12; 43_arithmetic.md R143 to R145): wrapping is the library's balanced
remainder, `quot` its truncating division, and DIVIDE its signed division of words. -/

namespace Sys2Proof

/-- The modulus of a positive width is twice the bound of its signed values (R10, R11). -/
theorem two_pow_eq_two_mul {w : Nat} (hw : 0 < w) : (2 : Int) ^ w = 2 * 2 ^ (w - 1) :=
  (mul_pow_sub_one hw.ne' 2).symm

/-- The signed value of a wrapped integer is the one value of sW congruent to it (R11). -/
theorem toInt_wrap_eq_iff {w : Nat} (hw : 0 < w) (v r : Int) :
    (wrap v : BitVec w).toInt = r ↔ -(2 : Int) ^ (w - 1) ≤ r ∧ r ≤ 2 ^ (w - 1) - 1 ∧ (2 : Int) ^ w ∣ r - v := by
  have hpow := two_pow_eq_two_mul hw
  rw [toInt_wrap, Int.bmod_eq_iff (by positivity)]
  push_cast
  rw [← and_assoc, ← and_assoc]
  refine and_congr_left fun _ => ?_
  rw [hpow]
  omega

/-- Settles O1: wrapping is the balanced remainder modulo 2^w. -/
theorem wrapIsTheCongruentWord : Obligations.WrapIsTheCongruentWord :=
  fun _ v r hw => toInt_wrap_eq_iff hw v r

/-- `quot` by the formula of R12: signs times the quotient of the magnitudes. -/
theorem quot_eq_sign_mul (a b : Int) : quot a b = a.sign * b.sign * ((a.natAbs / b.natAbs : Nat) : Int) := by
  have hmag : (quot a b).natAbs = a.natAbs / b.natAbs := Int.natAbs_tdiv a b
  rw [← Int.sign_mul_natAbs (quot a b), hmag, quot, Int.sign_tdiv]
  by_cases hlt : a.natAbs < b.natAbs
  · simp [Nat.div_eq_of_lt hlt]
  · rw [if_neg hlt]

/-- Settles O2: `quot` and `rem` are the library's truncating quotient and remainder. -/
theorem quotTruncatesTowardZero : Obligations.QuotTruncatesTowardZero := by
  refine fun a b hb => ⟨quot_eq_sign_mul a b, rfl, ?_, ?_⟩ <;> rw [rem_eq_tmod]
  · rw [Int.natAbs_tmod]
    exact Nat.mod_lt _ (Int.natAbs_pos.2 hb)
  · by_cases hdvd : b ∣ a
    · exact .inl (Int.tmod_eq_zero_of_dvd hdvd)
    · exact .inr (by rw [Int.sign_tmod, if_neg hdvd])

end Sys2Proof

namespace Sys2Proof.Machine

/-- A wider word holds every value a narrower one does. -/
theorem toInt_wrap_of_abs_lt {n w : Nat} (hnw : n < w) {v : Int} (h : |v| < 2 ^ n) : (wrap v : BitVec w).toInt = v := by
  have hpow : (2 : Int) ^ n ≤ 2 ^ (w - 1) := pow_le_pow_right₀ (by norm_num) (by omega)
  obtain ⟨hlo, hhi⟩ := abs_lt.1 h
  exact toInt_wrap_of_fits (by omega) (by omega) (by omega)

/-- Settles O3: sums and differences of data values have 15 bits of magnitude, products 27 (R143, R144). -/
theorem aluIsExactInTheDataRange : Obligations.AluIsExactInTheDataRange := by
  intro w a b ha ha' hb hb'
  have hA : |a.toInt| ≤ 9999 := abs_le.2 ⟨ha, ha'⟩
  have hB : |b.toInt| ≤ 9999 := abs_le.2 ⟨hb, hb'⟩
  refine ⟨fun hw => ⟨toInt_wrap_of_abs_lt (n := 15) hw ?_, toInt_wrap_of_abs_lt (n := 15) hw ?_⟩,
    fun hw => toInt_wrap_of_abs_lt (n := 27) hw ?_⟩
  · linarith [abs_add_le a.toInt b.toInt]
  · linarith [abs_sub a.toInt b.toInt]
  · rw [abs_mul]
    linarith [mul_le_mul hA hB (abs_nonneg _) (by norm_num)]

/-- DIVIDE's result is the library's signed division of words (R145). -/
theorem aluDiv_eq_sdiv {w : Nat} (a b : BitVec w) : aluDiv a b = a.sdiv b := by
  apply BitVec.eq_of_toInt_eq
  rw [aluDiv, toInt_wrap, BitVec.toInt_sdiv, quot]

/-- The least value of a width, by its integer. -/
theorem eq_intMin_iff {w : Nat} (hw : 0 < w) (a : BitVec w) : a = BitVec.intMin w ↔ a.toInt = -(2 : Int) ^ (w - 1) := by
  rw [← BitVec.toInt_inj, BitVec.toInt_intMin_of_pos hw]

/-- The word of all ones, by its integer. -/
theorem eq_neg_one_iff {w : Nat} (hw : 0 < w) (b : BitVec w) : b = -1#w ↔ b.toInt = -1 := by
  rw [← BitVec.toInt_inj, BitVec.neg_one_eq_allOnes, BitVec.toInt_allOnes, if_pos hw]

/-- Settles O4: signed division of words overflows for the least value by -1 only. -/
theorem divisionOverflowsInOneCaseOnly : Obligations.DivisionOverflowsInOneCaseOnly := by
  intro w a b hw _
  rw [← eq_intMin_iff hw, ← eq_neg_one_iff hw, aluDiv_eq_sdiv]
  constructor
  · exact fun h => BitVec.toInt_sdiv_of_ne_or_ne a b (not_and_or.1 h)
  · rintro ⟨rfl, rfl⟩
    exact BitVec.intMin_sdiv_neg_one

end Sys2Proof.Machine
end

section
/-! PROOFS. The decoder and the program-word validator (30_encoding.md R72, R76; 70_reset_and_hazards.md R240): both ask
whether the quotient by 100 is a recognized code, which is a question about ranges. -/

namespace Sys2Proof

variable {W : Nat}

/-- Settles O6: neither decode register wraps, and a remainder by 100 has two digits. -/
theorem decodeSplitsByHundred : Obligations.DecodeSplitsByHundred := by
  intro W ir hW
  obtain ⟨-, hlo, hhi, -, -⟩ := quot_rem_100 ir.toInt
  rw [toInt_opcodeOf hW, toInt_operandOf hW]
  exact ⟨rfl, rfl, hlo, hhi⟩

/-- The values whose quotient by 100 is a recognized operation code (R75, R76). -/
theorem quot_mem_opcodes_iff (v : Int) :
    quot v 100 ∈ Config.opcodes ↔
      (1000 ≤ v ∧ v ≤ 1199) ∨ (2000 ≤ v ∧ v ≤ 2199) ∨ (3000 ≤ v ∧ v ≤ 3399) ∨ (4000 ≤ v ∧ v ≤ 4399) := by
  obtain ⟨hsplit, hlo, hhi, hnonneg, hnonpos⟩ := quot_rem_100 v
  simp only [Config.opcodes, List.mem_cons, List.not_mem_nil, or_false]
  omega

/-- The decoder rejects exactly the words of an unrecognized code, and names the code (R76). -/
theorem decode_error_iff (hW : Config.minWidth ≤ W) (w : Word W) (e : DecodeError) :
    decode w = .error e ↔ quot w.toInt 100 ∉ Config.opcodes ∧ e = .illegalOpcode (quot w.toInt 100) := by
  by_cases hmem : quot w.toInt 100 ∈ Config.opcodes
  · obtain ⟨i, hi⟩ := exists_decode_of_mem hW hmem
    simp [hi, hmem]
  · rw [decode_eq_select hW, select_of_not_mem hmem]
    simp [hmem, eq_comm]

/-- Settles O7: the rejected words are those of an unrecognized code, which leaves the ranges between the families. -/
theorem illegalWordsAreExactlyTheseRanges : Obligations.IllegalWordsAreExactlyTheseRanges := by
  intro W w hW
  simp only [decode_error_iff hW, quot_mem_opcodes_iff, and_true, exists_and_left, exists_eq]
  omega

/-- Settles O51: beside the two sentinels the validator accepts the words of a recognized code. -/
theorem validatorAcceptsExactlyTheseValues : Obligations.ValidatorAcceptsExactlyTheseValues := by
  intro v
  rw [Machine.acceptsProgramWord, Bool.or_eq_true, Bool.or_eq_true, decide_eq_true_eq, decide_eq_true_eq,
    decide_eq_true_eq, quot_mem_opcodes_iff, or_assoc]

/-- Settles O5: ten closed evaluations of the decoder. -/
theorem decodingOfWrittenWords : Obligations.DecodingOfWrittenWords := by
  unfold Obligations.DecodingOfWrittenWords
  decide

end Sys2Proof
end

section
/-! PROOFS. The memory array (20_memory.md R50, R52): validated access at every integer, and the canonical form as a
representation of the words. -/

namespace Sys2Proof.Machine

variable {W : Nat}

/-- Settles O42: a valid address is a natural number below 100, where both primitives act on its cell. -/
theorem addressValidation : Obligations.AddressValidation := by
  intro W a v s
  constructor
  · rintro ⟨hlo, hhi⟩
    lift a to Nat using hlo
    rw [memRead_natCast, memWrite_natCast, if_pos (by omega), if_pos (by omega)]
    exact ⟨rfl, rfl⟩
  · intro hout
    have hinvalid : validAddress a = false := by
      rw [validAddress, Bool.and_eq_false_iff, decide_eq_false_iff_not, decide_eq_false_iff_not]
      show ¬ 0 ≤ a ∨ ¬ a < ((100 : Nat) : Int)
      omega
    simp [memRead, memWrite, hinvalid]

/-- A canonical memory lists existing addresses only, so it reads as 0 above them (R35, R50). -/
theorem memGet_above {lo a : Nat} {m : Memory W} (hm : Memory.wfFrom lo m = true) (ha : 99 < a) : memGet m a = 0 := by
  induction m generalizing lo with
  | nil => rfl
  | cons c m ih =>
    obtain ⟨b, u⟩ := c
    obtain ⟨-, hb, -, hrest⟩ := wfFrom_cons.1 hm
    rw [memGet, if_neg (by omega)]
    exact ih hrest

/-- Two memories read alike at the addresses that exist. -/
def ReadAlike (m m' : Memory W) : Prop :=
  ∀ a, a ≤ 99 → memGet m a = memGet m' a

/-- A canonical memory with a cell does not read like one that starts above that cell: the cell's word is not 0. -/
theorem not_readAlike_of_below {lo b : Nat} {u : Word W} {m m' : Memory W}
    (hm : Memory.wfFrom lo ((b, u) :: m) = true) (hm' : Memory.wfFrom (b + 1) m' = true) :
    ¬ ReadAlike ((b, u) :: m) m' := by
  obtain ⟨-, hb, hu, -⟩ := wfFrom_cons.1 hm
  intro h
  have hread := h b (by omega)
  rw [memGet, if_pos rfl, memGet_below hm' (Nat.lt_succ_self b)] at hread
  exact hu hread

/-- Canonical memories that read alike have the same cells, one after the other: the least address is the first one that
reads as another word than 0. -/
theorem eq_of_readAlike {lo lo' : Nat} {m m' : Memory W} (hm : Memory.wfFrom lo m = true)
    (hm' : Memory.wfFrom lo' m' = true) (h : ReadAlike m m') : m = m' := by
  induction m generalizing lo lo' m' with
  | nil =>
    cases m' with
    | nil => rfl
    | cons c' m' => exact absurd (fun a ha => (h a ha).symm) (not_readAlike_of_below hm' rfl)
  | cons c m ih =>
    obtain ⟨b, u⟩ := c
    obtain ⟨h1, hb, hu, hrest⟩ := wfFrom_cons.1 hm
    cases m' with
    | nil => exact absurd h (not_readAlike_of_below hm rfl)
    | cons c' m' =>
      obtain ⟨b', u'⟩ := c'
      obtain ⟨h1', hb', hu', hrest'⟩ := wfFrom_cons.1 hm'
      obtain hlt | rfl | hlt := lt_trichotomy b b'
      · exact absurd h (not_readAlike_of_below hm (wfFrom_cons.2 ⟨hlt, hb', hu', hrest'⟩))
      · obtain rfl : u = u' := by simpa [memGet] using h b (by omega)
        have htail : ReadAlike m m' := by
          intro a ha
          obtain rfl | hne := eq_or_ne a b
          · rw [memGet_below hrest (Nat.lt_succ_self a), memGet_below hrest' (Nat.lt_succ_self a)]
          · simpa [memGet, hne] using h a ha
        rw [ih hrest hrest' htail]
      · exact absurd (fun a ha => (h a ha).symm)
          (not_readAlike_of_below hm' (wfFrom_cons.2 ⟨hlt, hb, hu, hrest⟩))

/-- Settles O43: the canonical form lists the words other than 0 in address order. -/
theorem canonicalMemoryIsDeterminedByItsWords : Obligations.CanonicalMemoryIsDeterminedByItsWords :=
  fun _ _ _ hm hm' => ⟨eq_of_readAlike hm hm', fun _ => memGet_above hm⟩

end Sys2Proof.Machine
end

section
/-! PROOFS. What an instruction can do, said once as seven kinds of effect, and the frames that follow (41_io.md to
44_control.md; 10_state.md R22; 20_memory.md R53, R59). -/

namespace Sys2Proof.Machine

variable {W : Nat}

/-- READ with an input queued raises AddressFault where its operand is no address (R52, R204). -/
theorem execute_read_of_invalid {aa : Nat} (haa : ¬ aa ≤ 99) {s : State W} {v : Int} {q : List Int}
    (hq : s.rtQueue = v :: q) : execute (.read aa) s = .next (stopWith .faulted .addressFault aa s.ir s) := by
  rw [execute_read_eq, hq]
  exact if_neg (by omega)

/-- The instructions that write `ACC` (R22). -/
def accumulatorWriters (aa : Nat) : List Instr :=
  [.load aa, .add aa, .subtract aa, .divide aa, .multiply aa]

/-- The instructions that do nothing but set the counter (R160 to R162). -/
def branches (aa : Nat) : List Instr :=
  [.branch aa, .branchneg aa, .branchzero aa]

/-- The next states an instruction with an operand in 0 to 99 can lead to. -/
inductive Effect (s : State W) : Instr → State W → Prop
  | input {aa : Nat} {v : Int} {q : List Int} (hq : s.rtQueue = v :: q) :
    Effect s (.read aa) { s with mem := memSet s.mem aa (wrap v), rtQueue := q, ic := s.ic + 1 }
  | output {aa : Nat} : Effect s (.write aa) { s with outTrace := s.outTrace ++ [memGet s.mem aa], ic := s.ic + 1 }
  | store {aa : Nat} : Effect s (.store aa) { s with mem := memSet s.mem aa s.acc, ic := s.ic + 1 }
  | accumulate {i : Instr} {aa : Nat} {a : Word W} (hi : i ∈ accumulatorWriters aa)
    (hdivisor : ∀ b, i = .divide b → memGet s.mem b ≠ 0) : Effect s i { s with acc := a, ic := s.ic + 1 }
  | transfer {i : Instr} {aa : Nat} {c : Counter} (hi : i ∈ branches aa) : Effect s i { s with ic := c }
  | halt {aa : Nat} :
    Effect s (.halt aa) { s with runState := .halted, stop := ⟨.halt, s.ic.toNat, s.ir⟩, ic := s.ic + 1 }
  | divideByZero {aa : Nat} (hzero : memGet s.mem aa = 0) :
    Effect s (.divide aa) { s with runState := .faulted, stop := ⟨.divideByZero, s.ic.toNat, s.ir⟩ }

/-- An instruction that answers one next state has the effect of that state. -/
theorem effect_of_eq {i : Instr} {s t u : State W} (hu : execute i s = .next u) (h : execute i s = .next t)
    (heffect : Effect s i u) : Effect s i t := by
  rw [hu] at h
  cases h
  exact heffect

/-- Every next state of an instruction whose operand is an address is one of its effects. -/
theorem effect_of_execute {i : Instr} {s t : State W} (haa : i.operand ≤ 99) (h : execute i s = .next t) :
    Effect s i t := by
  cases i with
  | read aa =>
    cases hq : s.rtQueue with
    | nil => simp [execute_read_of_empty aa hq] at h
    | cons v q => exact effect_of_eq (execute_read_of_cons haa hq) h (.input hq)
  | write aa => exact effect_of_eq (execute_write_of_le haa s) h .output
  | load aa => exact effect_of_eq (execute_load_of_le haa s) h (.accumulate (aa := aa) (by simp [accumulatorWriters]) nofun)
  | store aa => exact effect_of_eq (execute_store_of_le haa s) h .store
  | add aa => exact effect_of_eq (execute_add_of_le haa s) h (.accumulate (aa := aa) (by simp [accumulatorWriters]) nofun)
  | subtract aa =>
    exact effect_of_eq (execute_subtract_of_le haa s) h (.accumulate (aa := aa) (by simp [accumulatorWriters]) nofun)
  | divide aa =>
    by_cases hzero : memGet s.mem aa = 0
    · exact effect_of_eq (execute_divide_of_eq_zero haa hzero) h (.divideByZero hzero)
    · exact effect_of_eq (execute_divide_of_ne_zero haa hzero) h
        (.accumulate (aa := aa) (by simp [accumulatorWriters]) fun _ hdivide => by cases hdivide; exact hzero)
  | multiply aa =>
    exact effect_of_eq (execute_multiply_of_le haa s) h (.accumulate (aa := aa) (by simp [accumulatorWriters]) nofun)
  | branch aa => exact effect_of_eq (execute_branch_eq aa s) h (.transfer (aa := aa) (by simp [branches]))
  | branchneg aa => exact effect_of_eq (execute_branchneg_eq aa s) h (.transfer (aa := aa) (by simp [branches]))
  | branchzero aa => exact effect_of_eq (execute_branchzero_eq aa s) h (.transfer (aa := aa) (by simp [branches]))
  | halt aa => exact effect_of_eq (execute_halt_eq aa s) h .halt

/-- Settles O24: READ and STORE are one validated write at the data address. -/
theorem storingInstructionsFrame : Obligations.StoringInstructionsFrame := by
  rintro W aa s t i haa (rfl | rfl) hm h
  · cases hq : s.rtQueue with
    | nil =>
      rw [execute_read_of_empty aa hq] at h
      cases h
    | cons v q =>
      rw [execute_read_of_cons haa hq] at h
      cases h
      exact ⟨fun b hb => (memGet_memSet_dataAddress hm aa _ b).trans (if_neg hb), rfl, rfl, rfl, rfl, rfl, rfl, rfl, rfl,
        rfl, nofun, fun _ => rfl⟩
  · rw [execute_store_of_le haa] at h
    cases h
    exact ⟨fun b hb => (memGet_memSet_dataAddress hm aa _ b).trans (if_neg hb), rfl, rfl, rfl, rfl, rfl, rfl, rfl, rfl,
      rfl, fun _ => rfl, nofun⟩

/-- Settles O25: of the seven effects, those of the other ten instructions leave memory, the queue and the decode
registers, and each writes the register its rule names. -/
theorem nonStoringInstructionsFrame : Obligations.NonStoringInstructionsFrame := by
  intro W s t i hwf hother h
  cases effect_of_execute ((wellFormed_iff i).1 hwf) h with
  | input hq => exact absurd rfl (hother _).1
  | store => exact absurd rfl (hother _).2
  | output =>
    exact ⟨fun _ => rfl, rfl, rfl, rfl, rfl, rfl, rfl, fun _ => rfl, fun hne => absurd rfl (hne _), fun _ => ⟨rfl, rfl⟩,
      nofun⟩
  | accumulate hi hdivisor =>
    refine ⟨fun _ => rfl, rfl, rfl, rfl, rfl, rfl, rfl, fun hne => ?_, fun _ => rfl, fun _ => ⟨rfl, rfl⟩, ?_⟩
    · simp [accumulatorWriters, hne] at hi
    · exact fun aa hdivide hzero => absurd hzero (hdivisor aa hdivide)
  | transfer hi =>
    refine ⟨fun _ => rfl, rfl, rfl, rfl, rfl, rfl, rfl, fun _ => rfl, fun _ => rfl, fun _ => ⟨rfl, rfl⟩, ?_⟩
    rintro aa rfl -
    simp [branches] at hi
  | halt =>
    exact ⟨fun _ => rfl, rfl, rfl, rfl, rfl, rfl, rfl, fun _ => rfl, fun _ => rfl, fun hne => absurd rfl (hne _).1, nofun⟩
  | divideByZero hzero =>
    exact ⟨fun _ => rfl, rfl, rfl, rfl, rfl, rfl, rfl, fun _ => rfl, fun _ => rfl, fun hne => absurd ⟨rfl, hzero⟩ (hne _).2,
      fun _ _ _ => ⟨rfl, rfl⟩⟩

/-- At every width, legal or not, the operand field has two digits: a remainder by 100 that wraps is smaller still (R73). -/
theorem operand_le_of_decode {w : Word W} {i : Instr} (h : decode w = .ok i) : i.operand ≤ 99 := by
  obtain ⟨-, hoperand⟩ := (select_ok_iff _ _ i).1 h
  obtain ⟨-, hlo, hhi, -, -⟩ := quot_rem_100 w.toInt
  have hopd : (operandOf w).toInt ≤ 99 := by
    by_cases hW : W ≤ 7
    · have hlt : (operandOf w).toInt < 2 ^ (W - 1) := BitVec.toInt_lt
      have hpow : (2 : Int) ^ (W - 1) ≤ 2 ^ 6 := pow_le_pow_right₀ (by norm_num) (by omega)
      omega
    · have hpow : (2 : Int) ^ 7 ≤ 2 ^ (W - 1) := pow_le_pow_right₀ (by norm_num) (by omega)
      rw [operandOf, toInt_wrap_of_fits (by omega) (by omega) (by omega)]
      exact hhi
  omega

/-- The loader writes no register, no queue and no output (R241). -/
theorem loadValue_changes_only (v : Int) (s : State W) :
    ∃ r k m n, loadValue v s = { s with runState := r, stop := k, mem := m, loadAddr := n } := by
  unfold loadValue
  split_ifs
  · exact ⟨.running, _, _, _, rfl⟩
  · exact ⟨.running, _, _, _, rfl⟩
  · unfold loadWord
    rw [memWrite_natCast]
    split_ifs
    · exact ⟨_, _, _, _, rfl⟩
    · exact ⟨_, _, _, _, rfl⟩
    · exact ⟨_, _, _, _, rfl⟩
  · exact ⟨_, _, _, _, rfl⟩

/-- READ, WRITE, BRANCH and HALT carry `ACC` along unread (R22). -/
theorem execute_setAcc {i : Instr} {aa : Nat} (hi : i ∈ [Instr.read aa, .write aa, .branch aa, .halt aa])
    (a : Word W) (s : State W) : execute i (setAcc a s) = mapNext (setAcc a) (execute i s) := by
  simp only [List.mem_cons, List.not_mem_nil, or_false] at hi
  obtain rfl | rfl | rfl | rfl := hi
  · rw [execute_read_eq, execute_read_eq, setAcc_rtQueue]
    split
    · rfl
    · split_ifs <;> rfl
  · rw [execute_write_eq, execute_write_eq]
    split_ifs <;> rfl
  · rfl
  · rfl

/-- Settles O26: of the effects of an instruction only the accumulating one writes `ACC`, and neither the loader nor a stop
does. -/
theorem onlyFiveInstructionsWriteTheAccumulator : Obligations.OnlyFiveInstructionsWriteTheAccumulator := by
  refine ⟨fun W limit s t h hacc => ?_, fun W aa s a i hi => execute_setAcc hi a s, fun W aa s a haa => ?_⟩
  · obtain ⟨-, v, rest, -, rfl⟩ | ⟨-, -, rfl⟩ | ⟨w, -, -, rfl⟩ | ⟨w, i, hfetch, hdecode, hexec⟩ := transaction_cases h
    · obtain ⟨r, k, m, n, hload⟩ := loadValue_changes_only v { s with progIn := rest }
      exact absurd (congrArg State.acc hload) hacc
    · exact absurd rfl hacc
    · exact absurd rfl hacc
    · cases effect_of_execute (operand_le_of_decode hdecode) hexec with
      | accumulate hi _ => exact ⟨w, i, _, hfetch, hdecode, hi⟩
      | input | output | store | transfer | halt | divideByZero => exact absurd rfl hacc
  · rw [execute_load_of_le haa, execute_load_of_le haa]

/-- Settles O27: of the effects of an instruction only the two storing ones write memory, each at its operand. -/
theorem onlyReadAndStoreWriteMemory : Obligations.OnlyReadAndStoreWriteMemory := by
  intro W limit s t b hW hm hidle h hb
  obtain ⟨hrun, -⟩ | ⟨-, -, rfl⟩ | ⟨w, -, -, rfl⟩ | ⟨w, i, hfetch, hdecode, hexec⟩ := transaction_cases h
  · exact absurd hrun hidle
  · exact absurd rfl hb
  · exact absurd rfl hb
  · have hwritten : ∀ aa v, memGet (memSet s.mem aa v) b ≠ memGet s.mem b → b = aa := fun aa v hne =>
      by_contra fun hba => hne ((memGet_memSet hm aa v b).trans (if_neg hba))
    cases effect_of_execute (operand_le_of_decode hdecode) hexec with
    | input => exact ⟨w, hfetch, .inl (hwritten _ _ hb ▸ hdecode)⟩
    | store => exact ⟨w, hfetch, .inr (hwritten _ _ hb ▸ hdecode)⟩
    | output | accumulate | transfer | halt | divideByZero => exact absurd rfl hb

/-- Settles O23: every instruction with a memory operand validates it first; a READ gets there once an input is queued. -/
theorem operandOutsideMemoryRaisesAddressFault : Obligations.OperandOutsideMemoryRaisesAddressFault := by
  rintro W aa s i haa (hi | ⟨rfl, hq⟩)
  · have hout : ¬ aa < 100 := by omega
    simp only [List.mem_cons, List.not_mem_nil, or_false] at hi
    obtain rfl | rfl | rfl | rfl | rfl | rfl | rfl := hi
    · exact (execute_write_eq aa s).trans (if_neg hout)
    · exact (execute_load_eq aa s).trans (if_neg hout)
    · exact (execute_store_eq aa s).trans (if_neg hout)
    · exact (execute_add_eq aa s).trans (if_neg hout)
    · exact (execute_subtract_eq aa s).trans (if_neg hout)
    · exact (execute_divide_eq aa s).trans (if_neg hout)
    · exact (execute_multiply_eq aa s).trans (if_neg hout)
  · obtain ⟨v, q, hcons⟩ := List.exists_cons_of_ne_nil hq
    exact execute_read_of_invalid (by omega) hcons

end Sys2Proof.Machine
end

section
/-! PROOFS. Ports, status and reset (10_state.md R40 to R46, R35; 60_exceptions.md R205, R209; 70_reset_and_hazards.md R230,
R244): what an offer, a reset and a reader of the status see. -/

namespace Sys2Proof.Machine

variable {W : Nat}

/-- An accepted runtime value joins the queue (R120). -/
theorem offerRuntime_of_accepts {v : Int} (h : acceptsRuntime v = true) (s : State W) :
    offerRuntime v s = { s with rtQueue := s.rtQueue ++ [v] } :=
  if_pos h

/-- A rejected runtime value is discarded (R205). -/
theorem offerRuntime_of_rejects {v : Int} (h : acceptsRuntime v = false) (s : State W) : offerRuntime v s = s :=
  if_neg (by simp [h])

/-- Settles O44: the values of the data range are the accepted ones. -/
theorem runtimePortQueuesInOrder : Obligations.RuntimePortQueuesInOrder :=
  fun _ v s hlo hhi => offerRuntime_of_accepts ((acceptsRuntime_iff v).2 ⟨hlo, hhi⟩) s

/-- A program value the validator rejects changes nothing (R205, R240). -/
theorem loadValue_of_rejects {v : Int} (h : acceptsProgramWord v = false) (s : State W) : loadValue v s = s :=
  if_neg (by simp [h])

/-- In `IDLE` a step takes the oldest pending program value and does with it what the loader does (R42). -/
theorem transaction_of_pending {s : State W} {v : Int} {rest : List Int} (limit : Config.FetchLimit)
    (hidle : s.runState = .idle) (hpending : s.progIn = v :: rest) :
    transaction limit s = .next (loadValue v { s with progIn := rest }) := by
  rw [transaction_idle limit hidle, loaderStep, hpending]

/-- Settles O45: both validators' rejections discard the value. -/
theorem malformedInputIsDiscarded : Obligations.MalformedInputIsDiscarded := by
  intro W v s
  constructor
  · intro hout
    have hrejects : acceptsRuntime v = false := by
      rw [← Bool.not_eq_true, acceptsRuntime_iff]
      omega
    exact offerRuntime_of_rejects hrejects s
  · intro limit rest hidle hpending hrejects
    rw [transaction_of_pending limit hidle hpending, loadValue_of_rejects hrejects]

/-- The entry of the status's memory at an existing address is the word there (R46). -/
theorem memoryWords_getElem? {a : Nat} (ha : a ≤ 99) (s : State W) : (memoryWords s)[a]? = some (memGet s.mem a) := by
  have hlt : a < Config.memSize := Nat.lt_succ_of_le ha
  rw [memoryWords, List.getElem?_map, List.getElem?_range hlt, Option.map_some]

/-- Settles O47: the status copies the state, its memory word by word. -/
theorem statusPresentsTheState : Obligations.StatusPresentsTheState :=
  fun _ s => ⟨rfl, rfl, rfl, rfl, rfl, rfl, rfl, by simp [status, memoryWords], fun _ ha => memoryWords_getElem? ha s⟩

/-- The final report depends on the status and the output trace only. -/
theorem finalReport_congr {s t : State W} (hstatus : status t = status s) (hout : output t = output s) :
    finalReport t = finalReport s := by
  have hrun : t.runState = s.runState := congrArg Status.runState hstatus
  unfold finalReport
  rw [hrun, hstatus, hout]

/-- The host's events other than reset reach no part of the status and no output (R250). -/
theorem status_output_hostEvent {e : HostEvent} (he : e ≠ .reset) (s : State W) :
    status (hostEvent e s) = status s ∧ output (hostEvent e s) = output s := by
  obtain ⟨p, q, hpq⟩ := hostEvent_changes_queues_only he s
  rw [hpq]
  exact ⟨rfl, rfl⟩

/-- No sequence of host events without a reset changes the final report. -/
theorem finalReport_hostEvents {events : List HostEvent} (h : .reset ∉ events) (s : State W) :
    finalReport (events.foldl (fun t e => hostEvent e t) s) = finalReport s := by
  induction events generalizing s with
  | nil => rfl
  | cons e events ih =>
    obtain ⟨he, hrest⟩ := not_or.1 (mt List.mem_cons.2 h)
    obtain ⟨hstatus, hout⟩ := status_output_hostEvent (Ne.symm he) s
    exact (ih hrest _).trans (finalReport_congr hstatus hout)

/-- Settles O48: a report exists by the run state, and the host's offers keep what it shows. -/
theorem finalReportStaysUntilReset : Obligations.FinalReportStaysUntilReset := by
  intro W s events hevents
  rw [finalReport_hostEvents hevents]
  unfold finalReport
  cases s.runState <;> simp

/-- The cause with a code; the codes end at 6 (R209). -/
def causeOfCode : Nat → StopCause
  | 0 => .none
  | 1 => .halt
  | 2 => .runaway
  | 3 => .divideByZero
  | 4 => .illegalOpcode
  | 5 => .addressFault
  | _ => .loadOverflow

/-- A cause is determined by its code. -/
theorem causeOfCode_code : Function.LeftInverse causeOfCode StopCause.code := by
  intro c
  cases c <;> rfl

/-- Settles O49: the codes are 0 to 6, and a code gives its cause back. -/
theorem stopCodesAreDistinct : Obligations.StopCodesAreDistinct :=
  ⟨rfl, causeOfCode_code.injective⟩

/-- Settles O50: the event's effect is the reset state, whose fields are read off. -/
theorem resetGivesTheResetValues : Obligations.ResetGivesTheResetValues :=
  ⟨rfl, fun _ _ => ⟨_, rfl, rfl, rfl, rfl, rfl, rfl, rfl, fun _ _ => rfl, rfl, rfl, rfl, rfl, rfl, rfl⟩⟩

end Sys2Proof.Machine
end

section
/-! PROOFS. Which steps are taken, and by what a step stops the machine (40_engine.md R100 to R107; 60_exceptions.md R202 to
R209). -/

namespace Sys2Proof.Machine

variable {W : Nat}

/-- The only instruction that can take no step is a READ with an empty queue (R107). -/
theorem waits_of_execute_fault {i : Instr} {s : State W} {r : Fault} (h : execute i s = .fault r) :
    s.rtQueue = [] ∧ ∃ aa, i = .read aa := by
  cases i with
  | read aa =>
    cases hq : s.rtQueue with
    | nil => exact ⟨rfl, aa, rfl⟩
    | cons v q =>
      rw [execute_read_eq, hq] at h
      dsimp only at h
      split_ifs at h
  | write aa => rw [execute_write_eq] at h; split_ifs at h
  | load aa => rw [execute_load_eq] at h; split_ifs at h
  | store aa => rw [execute_store_eq] at h; split_ifs at h
  | add aa => rw [execute_add_eq] at h; split_ifs at h
  | subtract aa => rw [execute_subtract_eq] at h; split_ifs at h
  | divide aa => rw [execute_divide_eq] at h; split_ifs at h
  | multiply aa => rw [execute_multiply_eq] at h; split_ifs at h
  | branch aa => cases h
  | branchneg aa => rw [execute_branchneg_eq] at h; cases h
  | branchzero aa => rw [execute_branchzero_eq] at h; cases h
  | halt aa => cases h

/-- An instruction that does not wait completes. -/
theorem execute_completes {i : Instr} {s : State W} (h : ¬ (s.rtQueue = [] ∧ ∃ aa, i = .read aa)) :
    ∃ t, execute i s = .next t := by
  cases hexec : execute i s with
  | next t => exact ⟨t, rfl⟩
  | fault r => exact absurd (waits_of_execute_fault hexec) h
  | refused r => exact absurd hexec (execute_ne_refused i s r)

/-- The engine at a READ with an empty queue takes no step (R107). -/
theorem transaction_of_waits {limit : Config.FetchLimit} {s : State W} (h : WaitsForInput limit s) :
    transaction limit s = .fault .waitingForRuntimeInput := by
  obtain ⟨hq, w, aa, hfetch, hdecode⟩ := h
  rw [transaction_of_instruction hfetch hdecode]
  exact execute_read_of_empty aa hq

/-- A running engine that does not wait takes a step: the guard stops it, or dispatch does, or the instruction completes. -/
theorem exists_transaction_of_not_waits {limit : Config.FetchLimit} {s : State W} (hrun : s.runState = .running)
    (h : ¬ WaitsForInput limit s) : ∃ t, transaction limit s = .next t := by
  by_cases hic : limit.value < s.ic.toNat
  · exact ⟨_, transaction_runaway hrun hic⟩
  · have hfetch : Fetches limit s (memGet s.mem s.ic.toNat) := ⟨hrun, Nat.not_lt.1 hic, rfl⟩
    cases hdecode : decode (memGet s.mem s.ic.toNat) with
    | error e => exact ⟨_, by rw [transaction_of_fetches hfetch, dispatch_fetchDecode, hdecode]⟩
    | ok i =>
      rw [transaction_of_instruction hfetch hdecode]
      refine execute_completes ?_
      rintro ⟨hq, aa, rfl⟩
      exact h ⟨hq, _, aa, hfetch, hdecode⟩

/-- A step is enabled: a value is pending in `IDLE`, or the running engine does not wait (R42, R100, R107). -/
def StepEnabled (limit : Config.FetchLimit) (s : State W) : Prop :=
  (s.runState = .idle ∧ s.progIn ≠ []) ∨ (s.runState = .running ∧ ¬ WaitsForInput limit s)

theorem exists_transaction_of_enabled {limit : Config.FetchLimit} {s : State W} (h : StepEnabled limit s) :
    ∃ t, transaction limit s = .next t := by
  obtain ⟨hidle, hne⟩ | ⟨hrun, hwaits⟩ := h
  · obtain ⟨v, rest, hpending⟩ := List.exists_cons_of_ne_nil hne
    exact ⟨_, transaction_of_pending limit hidle hpending⟩
  · exact exists_transaction_of_not_waits hrun hwaits

theorem exists_fault_of_not_enabled {limit : Config.FetchLimit} {s : State W} (h : ¬ StepEnabled limit s) :
    ∃ r, transaction limit s = .fault r := by
  cases hs : s.runState with
  | idle =>
    have hempty : s.progIn = [] := by_contra fun hne => h (.inl ⟨hs, hne⟩)
    exact ⟨.waitingForProgramInput, by rw [transaction_idle limit hs, loaderStep, hempty]⟩
  | running => exact ⟨_, transaction_of_waits (by_contra fun hwaits => h (.inr ⟨hs, hwaits⟩))⟩
  | halted => exact ⟨_, transaction_stopped limit (.inl hs)⟩
  | faulted => exact ⟨_, transaction_stopped limit (.inr hs)⟩

/-- Settles O34: a transaction answers a next state where a step is enabled, and a fault where none is. -/
theorem stepsAreTakenExactlyWhenEnabled : Obligations.StepsAreTakenExactlyWhenEnabled := by
  intro W limit s
  by_cases henabled : StepEnabled limit s
  · obtain ⟨t, ht⟩ := exists_transaction_of_enabled henabled
    exact ⟨⟨fun _ => henabled, fun _ => ⟨t, ht⟩⟩, fun r => by simp [ht]⟩
  · obtain ⟨f, hf⟩ := exists_fault_of_not_enabled henabled
    exact ⟨⟨fun ⟨t, ht⟩ => by simp [hf] at ht, fun h => absurd h henabled⟩, fun r => by simp [hf]⟩

/-- Settles O32: with an accepted value queued the engine no longer waits, and a rejected one leaves the state as it is. -/
theorem readWaitsForAnAcceptedInput : Obligations.ReadWaitsForAnAcceptedInput := by
  intro W limit s hwaits
  refine ⟨transaction_of_waits hwaits, fun v => ⟨fun haccepts => ?_, fun hrejects => ?_⟩⟩
  · obtain ⟨-, w, aa, hfetch, -⟩ := hwaits
    rw [hostEvent, offerRuntime_of_accepts haccepts]
    refine exists_transaction_of_not_waits hfetch.running ?_
    rintro ⟨hq, -⟩
    simp at hq
  · rw [hostEvent, offerRuntime_of_rejects hrejects]
    exact transaction_of_waits hwaits

/-- Settles O29: the step of an instruction at every width, and the two defaults. -/
theorem stepRunsTheDecodedInstruction : Obligations.StepRunsTheDecodedInstruction := by
  refine ⟨fun W limit s w i hrun hic hw hdecode => ?_, fun s w i hrun hic hw hdecode => ?_, exec_eq_execute,
    core_eq_machine⟩
  · exact transaction_of_instruction ⟨hrun, hic, hw⟩ hdecode
  · rw [exec_eq_execute]
    exact transaction_of_instruction (limit := Config.fetchLimit) ⟨hrun, hic, hw⟩ hdecode

/-- Settles O31: past the limit the guard fires before anything is fetched. -/
theorem runawayIsASoftStop : Obligations.RunawayIsASoftStop :=
  fun _ _ _ hrun hic => transaction_runaway hrun hic

/-- Settles O38: the jump fits the counter, where the guard stops the next step. -/
theorem branchAboveTheLimitRunsAway : Obligations.BranchAboveTheLimitRunsAway := by
  intro W limit s w aa _ hfetch hdecode hlimit
  have hic : (jump aa (fetchDecode w s)).ic.toNat = aa := toNat_counter_of_operand (operand_le_of_decode hdecode)
  refine ⟨jump aa (fetchDecode w s), ?_, hfetch.running, hic, ?_⟩
  · rw [transaction_of_instruction hfetch hdecode, execute_branch_eq]
  · rw [transaction_runaway (s := jump aa (fetchDecode w s)) hfetch.running (hic.symm ▸ hlimit), pcAddr, hic]
    rfl

/-- A word stored at the next address by a step that advances the counter is the next word fetched (R63). -/
theorem fetches_stored {limit : Config.FetchLimit} {s t : State W} {v : Word W} (hm : s.mem.wf = true)
    (hrun : t.runState = .running) (hic : t.ic = s.ic + 1) (hmem : t.mem = memSet s.mem (s.ic.toNat + 1) v)
    (hlimit : s.ic.toNat + 1 ≤ limit.value) : Fetches limit t v := by
  have hnext : t.ic.toNat = s.ic.toNat + 1 := by
    have := limit_le limit
    rw [hic, toNat_counter_add_one (by omega)]
  refine ⟨hrun, hnext ▸ hlimit, ?_⟩
  rw [hnext, hmem, memGet_memSet hm, if_pos rfl]

/-- Settles O36: STORE and READ store at the next address and advance the counter to it. -/
theorem nextFetchSeesTheStore : Obligations.NextFetchSeesTheStore := by
  rintro W limit s t w aa hm hfetch h rfl hlimit
  have haa : s.ic.toNat + 1 ≤ 99 := hlimit.trans (limit_le limit)
  constructor
  · intro hdecode
    rw [transaction_of_instruction hfetch hdecode, execute_store_of_le haa] at h
    cases h
    exact fetches_stored hm hfetch.running rfl rfl hlimit
  · intro v q hdecode hq
    rw [transaction_of_instruction hfetch hdecode, execute_read_of_cons (s := fetchDecode w s) haa hq] at h
    cases h
    exact fetches_stored hm hfetch.running rfl rfl hlimit

/-- Settles O35: case by case of what a transaction can do, the loader's and the instructions' cases taken apart. -/
theorem eachStopCauseHasItsOneSource : Obligations.EachStopCauseHasItsOneSource := by
  intro W limit s t hW hload hnone h
  obtain ⟨hidle, v, rest, -, rfl⟩ | ⟨hrun, hic, rfl⟩ | ⟨w, hfetch, ⟨e, herror⟩, rfl⟩ | ⟨w, i, hfetch, hdecode, hexec⟩ :=
    transaction_cases h
  · obtain ⟨-, hs⟩ | ⟨-, -, hs⟩ | ⟨-, hs⟩ | ⟨-, -, hfull, hs⟩ | ⟨-, -, -, -, hs⟩ :=
      loadValue_cases v (s := { s with progIn := rest }) hload <;> rw [hs]
    · simp [hnone, hidle]
    · simp [hnone]
    · simp [hnone]
    · exact ⟨rfl, hidle, hfull⟩
    · simp [hnone, hidle]
  · exact ⟨rfl, hrun, hic⟩
  · exact ⟨rfl, w, hfetch, ((decode_error_iff hW w e).1 herror).1⟩
  · cases effect_of_execute (operand_le_of_decode hdecode) hexec with
    | halt => exact ⟨rfl, w, _, hfetch, hdecode⟩
    | divideByZero hzero => exact ⟨rfl, w, _, hfetch, hdecode, hzero⟩
    | input | output | store | accumulate | transfer => simp [hnone, hfetch.running]

end Sys2Proof.Machine
end

section
/-! PROOFS. What a step does not depend on (40_engine.md R109; 20_memory.md R59; 70_reset_and_hazards.md R250): a change of
the ports and of the loader's address is carried along by every instruction, and an offer by every step. -/

namespace Sys2Proof.Machine

variable {W : Nat}

/-- A change of what stands at the ports: the output trace, the input queue, the pending program values, and the loader's
address. -/
structure PortChange (W : Nat) where
  trace : List (Word W) → List (Word W)
  queue : List Int → List Int
  pending : List Int → List Int
  addr : Nat → Nat

/-- The state with a change made at its ports. -/
def PortChange.apply (c : PortChange W) (s : State W) : State W :=
  { s with outTrace := c.trace s.outTrace, rtQueue := c.queue s.rtQueue, progIn := c.pending s.progIn,
           loadAddr := c.addr s.loadAddr }

/-- A change of a queue that leaves its oldest value in front. -/
def KeepsHead (f : List Int → List Int) : Prop :=
  ∀ v q, f (v :: q) = v :: f q

/-- A change at the far ends of the ports only: it keeps the newest outputs and the oldest input. -/
structure PortChange.FarEnd (c : PortChange W) : Prop where
  trace : ∀ out v, c.trace (out ++ [v]) = c.trace out ++ [v]
  queue : KeepsHead c.queue

/-- An instruction carries a change at the far ends of the ports along, unless it is a READ for which the change fills an
empty queue. -/
theorem execute_apply {c : PortChange W} (hc : c.FarEnd) {i : Instr} {s : State W}
    (hread : ∀ aa, i = .read aa → s.rtQueue = [] → c.queue [] = []) :
    execute i (c.apply s) = mapNext c.apply (execute i s) := by
  cases i with
  | read aa =>
    cases hq : s.rtQueue with
    | nil =>
      have hq' : (c.apply s).rtQueue = [] := (congrArg c.queue hq).trans (hread aa rfl hq)
      rw [execute_read_of_empty aa hq, execute_read_of_empty aa hq']
      rfl
    | cons v q =>
      have hq' : (c.apply s).rtQueue = v :: c.queue q := (congrArg c.queue hq).trans (hc.queue v q)
      by_cases haa : aa ≤ 99
      · rw [execute_read_of_cons haa hq, execute_read_of_cons haa hq']
        rfl
      · rw [execute_read_of_invalid haa hq, execute_read_of_invalid haa hq']
        rfl
  | write aa =>
    rw [execute_write_eq, execute_write_eq]
    split_ifs
    · simp only [mapNext, PortChange.apply, outPut, advance, hc.trace]
    · rfl
  | load aa => rw [execute_load_eq, execute_load_eq, apply_ite (mapNext _)]; rfl
  | store aa => rw [execute_store_eq, execute_store_eq, apply_ite (mapNext _)]; rfl
  | add aa => rw [execute_add_eq, execute_add_eq, apply_ite (mapNext _)]; rfl
  | subtract aa => rw [execute_subtract_eq, execute_subtract_eq, apply_ite (mapNext _)]; rfl
  | divide aa => rw [execute_divide_eq, execute_divide_eq, apply_ite (mapNext _), apply_ite (mapNext _)]; rfl
  | multiply aa => rw [execute_multiply_eq, execute_multiply_eq, apply_ite (mapNext _)]; rfl
  | branch aa => rfl
  | branchneg aa => rw [execute_branchneg_eq, execute_branchneg_eq]; rfl
  | branchzero aa => rw [execute_branchzero_eq, execute_branchzero_eq]; rfl
  | halt aa => rfl

/-- A step of the running engine carries such a change along: the guard, the fetch and the dispatch do not see the ports. -/
theorem transaction_apply_of_running {c : PortChange W} (hc : c.FarEnd) {limit : Config.FetchLimit} {s : State W}
    (hrun : s.runState = .running) (hread : WaitsForInput limit s → c.queue [] = []) :
    transaction limit (c.apply s) = mapNext c.apply (transaction limit s) := by
  by_cases hic : limit.value < s.ic.toNat
  · rw [transaction_runaway hrun hic, transaction_runaway (s := c.apply s) hrun hic]
    rfl
  · have hfetch : Fetches limit s (memGet s.mem s.ic.toNat) := ⟨hrun, Nat.not_lt.1 hic, rfl⟩
    have hfetch' : Fetches limit (c.apply s) (memGet s.mem s.ic.toNat) := ⟨hrun, Nat.not_lt.1 hic, rfl⟩
    rw [transaction_of_fetches hfetch, transaction_of_fetches hfetch', dispatch_fetchDecode, dispatch_fetchDecode]
    cases hdecode : decode (memGet s.mem s.ic.toNat) with
    | error e => rfl
    | ok i =>
      refine execute_apply (s := fetchDecode _ s) hc fun aa hi hq => hread ⟨hq, _, aa, hfetch, ?_⟩
      rw [hdecode, hi]

/-- Outside `IDLE` every transaction carries such a change along: a stopped machine takes none either way. -/
theorem transaction_apply {c : PortChange W} (hc : c.FarEnd) {limit : Config.FetchLimit} {s : State W}
    (hidle : s.runState ≠ .idle) (hread : WaitsForInput limit s → c.queue [] = []) :
    transaction limit (c.apply s) = mapNext c.apply (transaction limit s) := by
  cases hs : s.runState with
  | idle => exact absurd hs hidle
  | running => exact transaction_apply_of_running hc hs hread
  | halted => rw [transaction_stopped limit (.inl hs), transaction_stopped (s := c.apply s) limit (.inl hs)]; rfl
  | faulted => rw [transaction_stopped limit (.inr hs), transaction_stopped (s := c.apply s) limit (.inr hs)]; rfl

/-- Settles O39: putting values in front of the trace and replacing the loader's fields is a change at the far ends, and
touches no input queue. -/
theorem engineReadsNeitherTraceNorLoader : Obligations.EngineReadsNeitherTraceNorLoader := by
  intro W limit s out p n hrun
  have hc : PortChange.FarEnd (W := W) ⟨(out ++ ·), id, fun _ => p, fun _ => n⟩ :=
    ⟨fun old v => (List.append_assoc out old [v]).symm, fun _ _ => rfl⟩
  exact transaction_apply_of_running hc hrun fun _ => rfl

/-- Settles O46: a host event but reset reaches the queues only, and replacing the pending values touches neither end of
the trace or the input queue. -/
theorem hostCannotWriteMemoryOrRegisters : Obligations.HostCannotWriteMemoryOrRegisters := by
  refine ⟨fun W s e he => ⟨fun b => ?_, status_output_hostEvent he s⟩, fun W limit s p hidle => ?_⟩
  · obtain ⟨p, q, hpq⟩ := hostEvent_changes_queues_only he s
    rw [hpq]
  · have hc : PortChange.FarEnd (W := W) ⟨id, id, fun _ => p, id⟩ := ⟨fun _ _ => rfl, fun _ _ => rfl⟩
    exact transaction_apply hc hidle fun _ => rfl

/-- A change of the two input queues. -/
def inputChange (W : Nat) (p q : List Int → List Int) : PortChange W :=
  ⟨id, q, p, id⟩

/-- A host event other than reset changes the two input queues, behind their oldest values. -/
theorem hostEvent_eq_inputChange {e : HostEvent} (he : e ≠ .reset) :
    ∃ p q, KeepsHead p ∧ KeepsHead q ∧ ∀ s : State W, hostEvent e s = (inputChange W p q).apply s := by
  cases e with
  | reset => exact absurd rfl he
  | offerProgram v => exact ⟨(· ++ [v]), id, fun _ _ => rfl, fun _ _ => rfl, fun _ => rfl⟩
  | offerRuntime v =>
    cases hv : acceptsRuntime v with
    | true => exact ⟨id, (· ++ [v]), fun _ _ => rfl, fun _ _ => rfl, offerRuntime_of_accepts hv⟩
    | false => exact ⟨id, id, fun _ _ => rfl, fun _ _ => rfl, offerRuntime_of_rejects hv⟩

/-- A step of the loader carries along a change of the input queues behind the value it consumes. -/
theorem transaction_inputChange_of_idle {p q : List Int → List Int} (hp : KeepsHead p) {limit : Config.FetchLimit}
    {s t : State W} (hidle : s.runState = .idle) (h : transaction limit s = .next t) :
    transaction limit ((inputChange W p q).apply s) = .next ((inputChange W p q).apply t) := by
  cases hpending : s.progIn with
  | nil => simp [transaction_idle limit hidle, loaderStep, hpending] at h
  | cons v rest =>
    rw [transaction_of_pending limit hidle hpending] at h
    cases h
    have hpending' : ((inputChange W p q).apply s).progIn = v :: p rest := (congrArg p hpending).trans (hp v rest)
    rw [transaction_of_pending limit (s := (inputChange W p q).apply s) hidle hpending']
    have hload := loadValue_queues v (p rest) (q s.rtQueue) { s with progIn := rest }
    obtain ⟨r, k, m, n, honly⟩ := loadValue_changes_only v { s with progIn := rest }
    rw [honly] at hload ⊢
    exact congrArg _ hload

/-- Settles O40: an offer changes a queue behind its oldest value, which is all that a step reads of it. -/
theorem offersCommuteWithSteps : Obligations.OffersCommuteWithSteps := by
  intro W limit s t e he h
  obtain ⟨p, q, hp, hq, heq⟩ := hostEvent_eq_inputChange (W := W) he
  rw [heq, heq]
  by_cases hidle : s.runState = .idle
  · exact transaction_inputChange_of_idle hp hidle h
  · have hc : (inputChange W p q).FarEnd := ⟨fun _ _ => rfl, hq⟩
    have hnotWaiting : ¬ WaitsForInput limit s := fun hwaits => by simp [transaction_of_waits hwaits] at h
    rw [transaction_apply hc hidle fun hwaits => absurd hwaits hnotWaiting, h]
    rfl

end Sys2Proof.Machine
end

section
/-! PROOFS. The loader (70_reset_and_hazards.md R241 to R243): what it has stored after each value, and how a load ends. -/

namespace Sys2Proof.Machine

variable {W : Nat}

/-! ### Loadable programs and their images -/

theorem loadableProgram_nil : LoadableProgram [] := by
  simp [LoadableProgram]

/-- One more word makes a loadable program exactly when the loader stores that word (R241). -/
theorem loadableProgram_append_iff (vs : List Int) (v : Int) :
    LoadableProgram (vs ++ [v]) ↔
      LoadableProgram vs ∧ acceptsProgramWord v = true ∧ v ≠ Config.stopSentinel ∧
        ¬ (vs.length = 0 ∧ v = Config.demoSentinel) ∧ vs.length < Config.memSize := by
  cases vs with
  | nil => simp [LoadableProgram, and_assoc]
  | cons u vs =>
    rw [LoadableProgram, LoadableProgram, List.forall_mem_append, List.forall_mem_singleton, List.length_append,
      List.length_singleton]
    constructor
    · rintro ⟨⟨hvs, haccepts, hstop⟩, hhead, hlen⟩
      exact ⟨⟨hvs, hhead, by omega⟩, haccepts, hstop, by simp, hlen⟩
    · rintro ⟨⟨hvs, hhead, -⟩, haccepts, hstop, -, hlen⟩
      exact ⟨⟨hvs, haccepts, hstop⟩, hhead, hlen⟩

/-- What is stored first of a loadable program is loadable. -/
theorem LoadableProgram.of_append {vs us : List Int} (h : LoadableProgram (vs ++ us)) : LoadableProgram vs := by
  induction us using List.reverseRecOn with
  | nil => simpa using h
  | append_singleton us u ih =>
    rw [← List.append_assoc, loadableProgram_append_iff] at h
    exact ih h.1

/-- One more word is stored at the next address. -/
theorem image_append (vs : List Int) (v : Int) :
    (image (vs ++ [v]) : Memory W) = memSet (image vs) vs.length (wrap v) := by
  rw [image, List.map_append, List.map_singleton, storeWords_append, List.length_map, Nat.zero_add]
  rfl

/-- A run of words stored in empty memory reads as those words, and as 0 beyond them. -/
theorem memGet_storeWords_nil {ws : List (Word W)} (h : ws.length ≤ 100) (a : Nat) :
    memGet (storeWords 0 ws []) a = ws.getD a 0 := by
  rw [memGet_storeWords rfl (by omega)]
  by_cases ha : a < ws.length
  · rw [if_pos (by omega), Nat.sub_zero]
  · rw [if_neg (by omega), List.getD_eq_default _ _ (by omega)]
    rfl

theorem memGet_image {vs : List Int} (h : vs.length ≤ 100) (a : Nat) :
    memGet (image vs : Memory W) a = wrap (vs.getD a 0) := by
  have hzero : (wrap 0 : Word W) = 0 := by simp [wrap]
  rw [image, memGet_storeWords_nil (by rwa [List.length_map]), ← hzero, List.getD_map]

theorem demoProgram_length_le : (Config.demoProgram W).length ≤ 100 := by
  rw [Config.demoProgram, List.length_map, List.length_range]
  exact Nat.le_of_lt_succ Config.demoLength.isLt

/-! ### One value -/

/-- The program path: an accepted word that completes nothing is stored at the loader's address. -/
theorem loadValue_of_word {v : Int} {s : State W} (haccepts : acceptsProgramWord v = true)
    (hstop : v ≠ Config.stopSentinel) (hdemo : ¬ (s.loadAddr = 0 ∧ v = Config.demoSentinel)) (hload : s.loadAddr < 100) :
    loadValue v s = { s with mem := memSet s.mem s.loadAddr (wrap v), loadAddr := s.loadAddr + 1 } := by
  rw [loadValue, if_pos haccepts, if_neg hdemo, if_neg hstop, loadWord_eq v hload.le, if_neg hload.ne]

/-- The 101st word overflows the load (R208, R242). -/
theorem loadValue_of_full {v : Int} {s : State W} (haccepts : acceptsProgramWord v = true)
    (hstop : v ≠ Config.stopSentinel) (hload : s.loadAddr = 100) :
    loadValue v s = stopWith .faulted .loadOverflow 100 (wrap v) s := by
  rw [loadValue, if_pos haccepts, if_neg (by omega), if_neg hstop, loadWord_eq v hload.le, if_pos hload]

/-- The completing value starts the run, with memory as the load leaves it (R241, R243). -/
theorem loadValue_of_completes {v : Int} {s : State W} (h : CompletesLoad v s) :
    ∃ m, loadValue v s = startRun { s with mem := m } := by
  obtain rfl | ⟨rfl, hload⟩ := h
  · exact ⟨_, loadValue_stop s⟩
  · exact ⟨_, loadValue_demo hload⟩

/-! ### Runs of the loader -/

/-- The machine after power-on and a load of the words `vs`, with values pending and inputs queued. -/
def loadedState (W : Nat) (vs pending queue : List Int) : State W :=
  { State.resetAt W with mem := image vs, loadAddr := vs.length, progIn := pending, rtQueue := queue }

/-- The loader consumes the oldest pending value. -/
theorem run_loadedState (limit : Config.FetchLimit) (n : Nat) (vs rest queue : List Int) (v : Int) :
    (machine W limit).run (n + 1) (loadedState W vs (v :: rest) queue) =
      (machine W limit).run n (loadValue v (loadedState W vs rest queue)) :=
  run_succ n (transaction_of_pending limit rfl rfl)

/-- The loader consumes the values offered one by one and has then stored the accepted ones. -/
theorem run_loads (limit : Config.FetchLimit) (n : Nat) (later queue : List Int) {vs offered : List Int}
    (h : LoadableProgram (vs ++ offered.filter acceptsProgramWord)) :
    (machine W limit).run (offered.length + n) (loadedState W vs (offered ++ later) queue) =
      (machine W limit).run n (loadedState W (vs ++ offered.filter acceptsProgramWord) later queue) := by
  induction offered generalizing vs with
  | nil => simp
  | cons v offered ih =>
    rw [List.length_cons, Nat.add_right_comm, List.cons_append, run_loadedState]
    cases haccepts : acceptsProgramWord v with
    | false =>
      have hskip : (v :: offered).filter acceptsProgramWord = offered.filter acceptsProgramWord := by simp [haccepts]
      rw [hskip] at h ⊢
      rw [loadValue_of_rejects haccepts, ih h]
    | true =>
      have hkeep : vs ++ (v :: offered).filter acceptsProgramWord =
          vs ++ [v] ++ offered.filter acceptsProgramWord := by simp [haccepts]
      rw [hkeep] at h ⊢
      obtain ⟨-, -, hstop, hdemo, hlen⟩ := (loadableProgram_append_iff vs v).1 h.of_append
      have hstored : loadValue v (loadedState W vs (offered ++ later) queue) =
          loadedState W (vs ++ [v]) (offered ++ later) queue := by
        rw [loadValue_of_word haccepts hstop hdemo hlen, loadedState, loadedState, image_append, List.length_append]
        rfl
      rw [hstored, ih h]

/-- Settles O52: the offered values are loaded, then the stop sentinel starts the run. -/
theorem loaderLoadsTheAcceptedWords : Obligations.LoaderLoadsTheAcceptedWords := by
  refine fun W limit offered later q h => ⟨?_, fun a _ => memGet_image h.2.2 a⟩
  refine (run_loads limit 1 (Config.stopSentinel :: later) q (vs := []) h).trans ?_
  rw [run_loadedState, loadValue_stop]
  rfl

/-- Settles O53: the hundred words are loaded, and the next one overflows the load. -/
theorem hundredAndFirstWordOverflowsTheLoader : Obligations.HundredAndFirstWordOverflowsTheLoader := by
  intro W limit offered later q v h hlen haccepts hstop
  refine (run_loads limit 1 (v :: later) q (vs := []) h).trans ?_
  rw [List.nil_append, run_loadedState, loadValue_of_full haccepts hstop hlen, loadedState, hlen]
  rfl

/-- Settles O54: the demonstration sentinel copies the program into empty memory and starts the run. -/
theorem demonstrationPathLoadsTheDemoProgram : Obligations.DemonstrationPathLoadsTheDemoProgram := by
  refine fun W => ⟨fun limit later q => ?_, demoProgram_length_le, fun a _ => memGet_storeWords_nil demoProgram_length_le a⟩
  refine (run_loadedState limit 0 [] later q Config.demoSentinel).trans ?_
  rw [loadValue_demo rfl]
  rfl

/-! ### The start of a run -/

/-- A value by which the loader starts the run is one that completes the load. -/
theorem completes_of_running {v : Int} {s : State W} (hidle : s.runState = .idle) (hload : s.loadAddr ≤ 100)
    (h : (loadValue v s).runState = .running) : CompletesLoad v s := by
  obtain ⟨-, hs⟩ | ⟨hzero, hv, -⟩ | ⟨hv, -⟩ | ⟨-, -, -, hs⟩ | ⟨-, -, -, -, hs⟩ := loadValue_cases v hload
  · simp [hs, hidle] at h
  · exact .inr ⟨hv, hzero⟩
  · exact .inl hv
  · simp [hs] at h
  · simp [hs, hidle] at h

/-- An effect of an instruction never leads to `IDLE`. -/
theorem Effect.not_idle {i : Instr} {s t : State W} (h : Effect s i t) (hs : s.runState ≠ .idle) :
    t.runState ≠ .idle := by
  cases h with
  | halt => nofun
  | divideByZero => nofun
  | input | output | store | accumulate | transfer => exact hs

/-- No transaction goes back to `IDLE` (R231). -/
theorem not_idle_of_transaction {limit : Config.FetchLimit} {s t : State W} (hs : s.runState ≠ .idle)
    (h : transaction limit s = .next t) : t.runState ≠ .idle := by
  obtain ⟨hidle, -⟩ | ⟨-, -, rfl⟩ | ⟨w, -, -, rfl⟩ | ⟨w, i, -, hdecode, hexec⟩ := transaction_cases h
  · exact absurd hidle hs
  · nofun
  · nofun
  · exact (effect_of_execute (operand_le_of_decode hdecode) hexec).not_idle hs

/-- While a load is in progress the loader's address is at most 100. -/
theorem LoadingState.loadAddr_le {s : State W} (h : LoadingState s) : s.loadAddr ≤ 100 := by
  obtain ⟨vs, hvs, hlen, -⟩ := h.memory
  exact hlen ▸ hvs.2.2

/-- Settles O55: the completing value starts the run on the registers of the load, no other value does, and no transaction
leads back. -/
theorem completedLoadStartsTheEngine : Obligations.CompletedLoadStartsTheEngine := by
  refine ⟨fun W limit s v rest hinv hidle hpending hcompletes => ?_, fun W limit s t hinv hidle h hrun => ?_,
    fun W limit s t => not_idle_of_transaction⟩
  · obtain ⟨m, hm⟩ := loadValue_of_completes (s := { s with progIn := rest }) hcompletes
    have hregs := (hinv.loading hidle).registers
    refine ⟨_, transaction_of_pending limit hidle hpending, ?_⟩
    rw [hm]
    exact ⟨rfl, hregs.ic, hregs.acc, hregs.ir, hregs.opc, hregs.opd, transaction_running limit rfl⟩
  · obtain ⟨-, v, rest, hpending, rfl⟩ | ⟨hrun', -⟩ | ⟨w, hfetch, -⟩ | ⟨w, i, hfetch, -⟩ := transaction_cases h
    · exact ⟨v, rest, hpending,
        completes_of_running (s := { s with progIn := rest }) hidle (hinv.loading hidle).loadAddr_le hrun⟩
    · simp [hidle] at hrun'
    · exact absurd (hidle.symm.trans hfetch.running) nofun
    · exact absurd (hidle.symm.trans hfetch.running) nofun

end Sys2Proof.Machine
end

section
/-! PROOFS. The invariant (10_state.md sections 3 to 5; 60_exceptions.md R209; 70_reset_and_hazards.md R241, R245): it holds
at reset and is kept by every host event and every step, and a run starts in a launch state. -/

namespace Sys2Proof.Machine

variable {W : Nat}

/-! ### What the parts of the invariant read -/

/-- The registers and the output trace do not see the run state, the stop record, memory, the queues or the loader. -/
theorem RegistersAtReset.change {s : State W} (h : RegistersAtReset s) (r : RunState) (k : StopRecord W) (m : Memory W)
    (p q : List Int) (n : Nat) :
    RegistersAtReset { s with runState := r, stop := k, mem := m, progIn := p, rtQueue := q, loadAddr := n } :=
  ⟨h.acc, h.ic, h.ir, h.opc, h.opd, h.outTrace⟩

/-- A load in progress does not see the run state, the stop record or the queues. -/
theorem LoadingState.change {s : State W} (h : LoadingState s) (r : RunState) (k : StopRecord W) (p q : List Int) :
    LoadingState { s with runState := r, stop := k, progIn := p, rtQueue := q } :=
  ⟨h.registers.change r k s.mem p q s.loadAddr, h.memory⟩

/-- The stop record's truth does not depend on the queues. -/
theorem stopTruthful_change_queues {limit : Config.FetchLimit} {s : State W} (h : stopTruthful limit s)
    (p q : List Int) : stopTruthful limit { s with progIn := p, rtQueue := q } := by
  unfold stopTruthful at h ⊢
  cases hc : s.stop.cause <;> simp only [hc] at h ⊢
  case loadOverflow =>
    obtain ⟨hrun, hloading, hfull⟩ := h
    exact ⟨hrun, hloading.change _ _ p q, hfull⟩
  all_goals exact h

/-- A state that has not stopped has the reset value of the stop record. -/
theorem stop_eq_of_active {limit : Config.FetchLimit} {s : State W} (h : stopTruthful limit s)
    (hs : s.runState = .idle ∨ s.runState = .running) : s.stop = ⟨.none, 0, 0⟩ := by
  obtain ⟨hhalted, hfaulted⟩ : s.runState ≠ .halted ∧ s.runState ≠ .faulted := by
    obtain hs | hs := hs <;> simp [hs]
  cases hstop : s.stop with
  | mk cause addr word =>
    unfold stopTruthful at h
    rw [hstop] at h
    cases cause with
    | none =>
      obtain ⟨-, rfl, rfl⟩ := h
      rfl
    | halt => exact absurd h.1 hhalted
    | runaway => exact absurd h.1 hhalted
    | divideByZero => exact absurd h.1 hfaulted
    | illegalOpcode => exact absurd h.1 hfaulted
    | addressFault => exact h.elim
    | loadOverflow => exact absurd h.1 hfaulted

/-- The reset value of the stop record is true of a state that has not stopped. -/
theorem stopTruthful_of_active {limit : Config.FetchLimit} {s : State W} (hstop : s.stop = ⟨.none, 0, 0⟩)
    (hs : s.runState = .idle ∨ s.runState = .running) : stopTruthful limit s := by
  unfold stopTruthful
  rw [hstop]
  exact ⟨hs, rfl, rfl⟩

/-! ### Reset and host events -/

/-- The decode of the zero word, which `IR` holds at reset (R35). -/
theorem opcodeOf_zero : opcodeOf (0 : Word W) = 0 := by
  simp [opcodeOf, quot, wrap]

theorem operandOf_zero : operandOf (0 : Word W) = 0 := by
  simp [operandOf, rem, quot, wrap]

theorem registersAtReset_resetAt : RegistersAtReset (State.resetAt W) :=
  ⟨rfl, rfl, rfl, rfl, rfl, rfl⟩

/-- Settles O57: the reset state is that of a load with no word stored. -/
theorem invariantHoldsAtReset : Obligations.InvariantHoldsAtReset := fun _ _ =>
  { memCanonical := reset_mem_wf
    queueInRange := nofun
    counterBound := Nat.zero_le _
    opcDecoded := opcodeOf_zero.symm
    opdDecoded := operandOf_zero.symm
    loading := fun _ => ⟨registersAtReset_resetAt, [], loadableProgram_nil, rfl, rfl⟩
    stopTrue := stopTruthful_of_active rfl (.inl rfl) }

/-- Replacing the queues keeps the invariant when the inputs stay in range. -/
theorem Inv.change_queues {limit : Config.FetchLimit} {s : State W} (h : Inv limit s) (p : List Int) {q : List Int}
    (hq : ∀ v ∈ q, acceptsRuntime v = true) : Inv limit { s with progIn := p, rtQueue := q } :=
  { memCanonical := h.memCanonical
    queueInRange := hq
    counterBound := h.counterBound
    opcDecoded := h.opcDecoded
    opdDecoded := h.opdDecoded
    loading := fun hidle => (h.loading hidle).change _ _ p q
    stopTrue := stopTruthful_change_queues h.stopTrue p q }

/-- Settles O59: an offer adds a pending value or an accepted input. -/
theorem hostEventsKeepTheInvariant : Obligations.HostEventsKeepTheInvariant := by
  intro W limit s e h
  cases e with
  | reset => exact invariantHoldsAtReset W limit
  | offerProgram v => exact h.change_queues _ h.queueInRange
  | offerRuntime v =>
    cases hv : acceptsRuntime v with
    | true =>
      rw [hostEvent, offerRuntime_of_accepts hv]
      exact h.change_queues _ (List.forall_mem_append.2 ⟨h.queueInRange, List.forall_mem_singleton.2 hv⟩)
    | false =>
      rw [hostEvent, offerRuntime_of_rejects hv]
      exact h

/-! ### The loader's steps -/

/-- The demonstration path starts from empty memory: no word is stored yet. -/
theorem LoadingState.mem_eq_nil {s : State W} (h : LoadingState s) (hzero : s.loadAddr = 0) : s.mem = [] := by
  obtain ⟨vs, -, hlen, hmem⟩ := h.memory
  obtain rfl : vs = [] := List.length_eq_zero_iff.1 (hlen.trans hzero)
  exact hmem

/-- Storing a word keeps a load in progress. -/
theorem LoadingState.store {s : State W} (h : LoadingState s) {v : Int} (haccepts : acceptsProgramWord v = true)
    (hstop : v ≠ Config.stopSentinel) (hdemo : ¬ (s.loadAddr = 0 ∧ v = Config.demoSentinel)) (hload : s.loadAddr < 100) :
    LoadingState { s with mem := memSet s.mem s.loadAddr (wrap v), loadAddr := s.loadAddr + 1 } := by
  obtain ⟨vs, hvs, hlen, hmem⟩ := h.memory
  refine ⟨h.registers.change _ _ _ _ _ _, vs ++ [v], ?_, ?_, ?_⟩
  · rw [← hlen] at hdemo hload
    exact (loadableProgram_append_iff vs v).2 ⟨hvs, haccepts, hstop, hdemo, hload⟩
  · rw [List.length_append, hlen, List.length_singleton]
  · rw [image_append, hlen, hmem]

/-- A run that the loader starts is launched as R245 says. -/
theorem launchState_of_loadValue {limit : Config.FetchLimit} {s : State W} {v : Int} (h : Inv limit s)
    (hidle : s.runState = .idle) (hrun : (loadValue v s).runState = .running) : LaunchState (loadValue v s) := by
  have hloading := h.loading hidle
  have hstop := stop_eq_of_active h.stopTrue (.inl hidle)
  obtain rfl | ⟨rfl, hzero⟩ := completes_of_running hidle hloading.loadAddr_le hrun
  · obtain ⟨vs, hvs, -, hmem⟩ := hloading.memory
    rw [loadValue_stop]
    exact ⟨rfl, hloading.registers.change _ _ _ _ _ _, hstop, .inr ⟨vs, hvs, hmem⟩⟩
  · rw [loadValue_demo hzero]
    refine ⟨rfl, hloading.registers.change _ _ _ _ _ _, hstop, .inl ?_⟩
    rw [startRun_mem, loadDemo_mem, hloading.mem_eq_nil hzero]

/-- Settles O56: the step consumes a value that completes the load. -/
theorem runsStartInLaunchStates : Obligations.RunsStartInLaunchStates := by
  intro W limit s t hinv hidle h hrun
  obtain ⟨-, v, rest, -, rfl⟩ | ⟨hrun', -⟩ | ⟨w, hfetch, -⟩ | ⟨w, i, hfetch, -⟩ := transaction_cases h
  · exact launchState_of_loadValue (hinv.change_queues rest hinv.queueInRange) hidle hrun
  · simp [hidle] at hrun'
  · exact absurd (hidle.symm.trans hfetch.running) nofun
  · exact absurd (hidle.symm.trans hfetch.running) nofun

/-- What the loader does with a value keeps the invariant. -/
theorem Inv.loadValue {limit : Config.FetchLimit} {s : State W} (h : Inv limit s) (hidle : s.runState = .idle)
    (v : Int) : Inv limit (loadValue v s) := by
  have hloading := h.loading hidle
  have hload := hloading.loadAddr_le
  have hstop := stop_eq_of_active h.stopTrue (.inl hidle)
  obtain ⟨-, hs⟩ | ⟨-, -, hs⟩ | ⟨-, hs⟩ | ⟨-, -, hfull, hs⟩ | ⟨haccepts, hne, hdemo, hlt, hs⟩ := loadValue_cases v hload <;>
    rw [hs]
  · exact h
  · exact ⟨storeWords_wf h.memCanonical (by rw [Nat.zero_add]; exact demoProgram_length_le), h.queueInRange, h.counterBound,
      h.opcDecoded, h.opdDecoded, nofun, stopTruthful_of_active hstop (.inr rfl)⟩
  · exact ⟨h.memCanonical, h.queueInRange, h.counterBound, h.opcDecoded, h.opdDecoded, nofun,
      stopTruthful_of_active hstop (.inr rfl)⟩
  · exact ⟨h.memCanonical, h.queueInRange, h.counterBound, h.opcDecoded, h.opdDecoded, nofun,
      rfl, hloading.change _ _ _ _, hfull, rfl⟩
  · exact ⟨memSet_wf hlt h.memCanonical, h.queueInRange, h.counterBound, h.opcDecoded, h.opdDecoded,
      fun _ => hloading.store haccepts hne hdemo hlt, stopTruthful_of_active hstop (.inl hidle)⟩

/-! ### The engine's steps -/

/-- A two-digit operand is a word, and its own unsigned value. -/
theorem toNat_wrap_operand (hW : Config.minWidth ≤ W) {aa : Nat} (haa : aa ≤ 99) : (wrap aa : Word W).toNat = aa := by
  have hpow : 2 ^ 18 ≤ 2 ^ W := Nat.pow_le_pow_right (by norm_num) hW
  rw [wrap, BitVec.ofInt_natCast, BitVec.toNat_ofNat, Nat.mod_eq_of_lt (by omega)]

theorem Effect.mem_wf {i : Instr} {s t : State W} (h : Effect s i t) (haa : i.operand ≤ 99) (hm : s.mem.wf = true) :
    t.mem.wf = true := by
  cases h with
  | input => exact memSet_wf (Nat.lt_succ_of_le haa) hm
  | store => exact memSet_wf (Nat.lt_succ_of_le haa) hm
  | output | accumulate | transfer | halt | divideByZero => exact hm

theorem Effect.queue_subset {i : Instr} {s t : State W} (h : Effect s i t) : t.rtQueue ⊆ s.rtQueue := by
  cases h with
  | input hq =>
    rw [hq]
    exact List.subset_cons_self _ _
  | output | store | accumulate | transfer | halt | divideByZero => exact List.Subset.refl _

theorem Effect.decode_registers {i : Instr} {s t : State W} (h : Effect s i t) :
    t.ir = s.ir ∧ t.opc = s.opc ∧ t.opd = s.opd := by
  cases h <;> exact ⟨rfl, rfl, rfl⟩

/-- The counter an instruction moves to is its operand or one more than before (R105). -/
theorem counterAfter_le {limit : Config.FetchLimit} {i : Instr} {s : State W} (haa : i.operand ≤ 99)
    (hic : s.ic.toNat ≤ limit.value) : counterAfter i s ≤ limit.value + 1 := by
  have hlow : 98 ≤ limit.value := by cases limit <;> decide
  have htarget : i.operand ≤ limit.value + 1 := by omega
  have hnext : s.ic.toNat + 1 ≤ limit.value + 1 := by omega
  cases i with
  | branch aa => exact htarget
  | branchneg aa =>
    dsimp only [counterAfter]
    split_ifs
    exacts [htarget, hnext]
  | branchzero aa =>
    dsimp only [counterAfter]
    split_ifs
    exacts [htarget, hnext]
  | _ => exact hnext

/-- Whatever an instruction answers, its counter is at most FETCH_LIMIT + 1 (R26). -/
theorem counter_le_of_execute {limit : Config.FetchLimit} {i : Instr} {s t : State W} (hrun : s.runState = .running)
    (hic : s.ic.toNat ≤ limit.value) (haa : i.operand ≤ 99) (h : execute i s = .next t) :
    t.ic.toNat ≤ limit.value + 1 := by
  have hafter : counterAfter i s ≤ limit.value + 1 := counterAfter_le haa hic
  obtain ⟨hstays, hmoves⟩ :=
    execute_staysOrMovesTo (by simp [hrun]) (hic.trans (limit_le limit)) haa h
  by_cases hfaulted : t.runState = .faulted
  · rw [hstays hfaulted]
    omega
  · exact (hmoves hfaulted).trans_le hafter

/-- The stop record after an instruction is true: HALT and a division by 0 write one that is, the others write none. -/
theorem stopTruthful_of_effect {limit : Config.FetchLimit} {i : Instr} {s t : State W} (hW : Config.minWidth ≤ W)
    (h : Effect s i t) (hrun : s.runState = .running) (hstop : s.stop = ⟨.none, 0, 0⟩) (hic : s.ic.toNat ≤ 99)
    (haa : i.operand ≤ 99) (hopc : s.opc = wrap i.opcode) (hopd : s.opd = wrap i.operand) : stopTruthful limit t := by
  cases h with
  | halt =>
    refine ⟨rfl, hopc, ?_, rfl⟩
    rw [pcAddr, toNat_counter_add_one hic]
    rfl
  | divideByZero hzero =>
    refine ⟨rfl, hopc, ?_, rfl, rfl⟩
    show memGet s.mem s.opd.toNat = 0
    rw [hopd, toNat_wrap_operand hW haa]
    exact hzero
  | input | output | store | accumulate | transfer => exact stopTruthful_of_active hstop (.inr hrun)

/-- Every step keeps the invariant, at every width and limit. -/
theorem Inv.transaction {limit : Config.FetchLimit} {s t : State W} (hW : Config.minWidth ≤ W) (hinv : Inv limit s)
    (h : transaction limit s = .next t) : Inv limit t := by
  obtain ⟨hidle, v, rest, -, rfl⟩ | ⟨hrun, hic, rfl⟩ | ⟨w, hfetch, ⟨e, herror⟩, rfl⟩ | ⟨w, i, hfetch, hdecode, hexec⟩ :=
    transaction_cases h
  · exact (hinv.change_queues rest hinv.queueInRange).loadValue hidle v
  · exact ⟨hinv.memCanonical, hinv.queueInRange, hinv.counterBound, hinv.opcDecoded, hinv.opdDecoded, nofun,
      rfl, hic, rfl, rfl⟩
  · have hcode : (opcodeOf w).toInt ∉ Config.opcodes := by
      rw [toInt_opcodeOf hW]
      exact ((decode_error_iff hW w e).1 herror).1
    exact ⟨hinv.memCanonical, hinv.queueInRange, hinv.counterBound, rfl, rfl, nofun, rfl, hcode, rfl, rfl⟩
  · have haa := operand_le_of_decode hdecode
    have heffect := effect_of_execute haa hexec
    obtain ⟨hir, hopc, hopd⟩ := heffect.decode_registers
    have hregs := fetchDecode_of_decode hW hdecode s
    have hstop := stop_eq_of_active hinv.stopTrue (.inr hfetch.running)
    have hnotIdle := not_idle_of_transaction (by simp [hfetch.running]) h
    exact
      { memCanonical := heffect.mem_wf haa hinv.memCanonical
        queueInRange := fun v hv => hinv.queueInRange v (heffect.queue_subset hv)
        counterBound := counter_le_of_execute (s := fetchDecode w s) hfetch.running hfetch.inLimit haa hexec
        opcDecoded := by rw [hopc, hir]; rfl
        opdDecoded := by rw [hopd, hir]; rfl
        loading := fun hidle => absurd hidle hnotIdle
        stopTrue := stopTruthful_of_effect hW heffect hfetch.running hstop (hfetch.inLimit.trans (limit_le limit)) haa
          (congrArg State.opc hregs) (congrArg State.opd hregs) }

/-- Settles O58: the step lemma, and the machine of both defaults. -/
theorem stepKeepsTheInvariant : Obligations.StepKeepsTheInvariant :=
  ⟨fun _ _ _ _ hW hinv h => hinv.transaction hW h, fun _ _ hinv h => hinv.transaction (by decide) h⟩

/-- Settles O60: the invariant holds at reset and every step and host event keeps it; it bounds the counter, and no true
stop record has the cause AddressFault. -/
theorem reachableStatesMeetTheInvariant : Obligations.ReachableStatesMeetTheInvariant := by
  intro W limit s hW hreach
  have hinv : Inv limit s := by
    induction hreach with
    | powerOn => exact invariantHoldsAtReset W limit
    | step _ h ih => exact ih.transaction hW h
    | host e _ ih => exact hostEventsKeepTheInvariant W limit _ e ih
  refine ⟨hinv, ?_, fun hcause => ?_⟩
  · have := hinv.counterBound
    have := limit_le limit
    omega
  · have htrue := hinv.stopTrue
    rw [stopTruthful, hcause] at htrue
    exact htrue

end Sys2Proof.Machine
end

section
/-! PROOFS. The machine and the spec's pseudocode (00_scope.md R11, R12; 40_engine.md R100; 41_io.md to 44_control.md): each
step of the pseudocode on a snapshot is the machine's operation, so every instruction commutes with taking one. -/

namespace Sys2Proof.Machine

variable {W : Nat}

/-! ### The formulas -/

/-- wrap_W by the formula of R11 is the signed value of the machine's wrapping. -/
theorem wrapW_eq_toInt_wrap (hW : 0 < W) (v : Int) : Pseudocode.wrapW W v = (wrap v : Word W).toInt := by
  have hpow := two_pow_eq_two_mul hW
  have hpos : (0 : Int) < 2 ^ W := by positivity
  have hlo := Int.emod_nonneg (v + 2 ^ (W - 1)) hpos.ne'
  have hhi := Int.emod_lt_of_pos (v + 2 ^ (W - 1)) hpos
  have hdvd : (2 : Int) ^ W ∣ Pseudocode.wrapW W v - v :=
    ⟨-((v + 2 ^ (W - 1)) / 2 ^ W), by
      rw [Pseudocode.wrapW]
      linarith [Int.emod_add_mul_ediv (v + 2 ^ (W - 1)) (2 ^ W)]⟩
  refine ((toInt_wrap_eq_iff hW v _).2 ⟨?_, ?_, hdvd⟩).symm <;>
    rw [Pseudocode.wrapW] <;>
    omega

theorem truncQuot_eq_quot (a b : Int) : Pseudocode.truncQuot a b = quot a b :=
  (quot_eq_sign_mul a b).symm

theorem truncRem_eq_rem (a b : Int) : Pseudocode.truncRem a b = rem a b := by
  rw [Pseudocode.truncRem, truncQuot_eq_quot, rem]

/-! ### The shared actions on snapshots -/

/-- `MemRead` at an existing address goes on with the word there. -/
theorem reading_snapshot {x : Int} {a : Nat} (hx : x = a) (ha : a ≤ 99) (s : State W)
    (rest : Int → Option Pseudocode.Snapshot) :
    Pseudocode.reading x (Pseudocode.snapshot s) rest = rest (memGet s.mem a).toInt := by
  rw [Pseudocode.reading, hx, if_neg (by omega)]
  simp only [Pseudocode.snapshot]
  rw [if_pos (by omega), Int.toNat_natCast]

/-- `MemWrite` at an existing address goes on with the state after the machine's write. -/
theorem writing_snapshot {s : State W} (hm : s.mem.wf = true) {x : Int} {a : Nat} (hx : x = a) (ha : a ≤ 99) {y : Int}
    {v : Word W} (hy : v.toInt = y) (rest : Pseudocode.Snapshot → Option Pseudocode.Snapshot) :
    Pseudocode.writing x y (Pseudocode.snapshot s) rest =
      rest (Pseudocode.snapshot { s with mem := memSet s.mem a v }) := by
  rw [Pseudocode.writing, hx, if_neg (by omega)]
  have hmem : (fun b : Int => if b = a then y else (Pseudocode.snapshot s).M b) =
      (Pseudocode.snapshot { s with mem := memSet s.mem a v }).M := by
    funext b
    simp only [Pseudocode.snapshot, memGet_memSet hm]
    by_cases hb : 0 ≤ b ∧ b ≤ 99
    · rw [if_pos hb, if_pos hb]
      by_cases hba : b = a
      · rw [if_pos hba, if_pos (by omega), hy]
      · rw [if_neg hba, if_neg (by omega)]
    · rw [if_neg hb, if_neg hb, if_neg (by omega)]
  rw [hmem]
  rfl

/-- The counter advance, from every counter value at which a fetch happens. -/
theorem next_snapshot {s : State W} (hic : s.ic.toNat ≤ 99) :
    Pseudocode.next (Pseudocode.snapshot s) = some (Pseudocode.snapshot (advance s)) := by
  have hnext : ((s.ic + 1).toNat : Int) = s.ic.toNat + 1 := by
    rw [toNat_counter_add_one hic]
    rfl
  rw [Pseudocode.next]
  simp only [Pseudocode.snapshot, advance, hnext]

/-- An arithmetic result put into `ACC`, and the advance. -/
theorem next_accumulate (hW : 0 < W) {s : State W} (hic : s.ic.toNat ≤ 99) (v : Int) :
    Pseudocode.next { Pseudocode.snapshot s with ACC := Pseudocode.wrapW W v } =
      some (Pseudocode.snapshot { s with acc := wrap v, ic := s.ic + 1 }) := by
  rw [wrapW_eq_toInt_wrap hW]
  exact next_snapshot (s := setAcc (wrap v) s) hic

/-- A taken branch. -/
theorem jump_snapshot {x : Int} {aa : Nat} (hx : x = aa) (haa : aa ≤ 99) (s : State W) :
    some { Pseudocode.snapshot s with IC := x } = some (Pseudocode.snapshot (jump aa s)) := by
  simp only [Pseudocode.snapshot, jump, toNat_counter_of_operand haa, hx]

/-- The fetch and decode writes. -/
theorem fetchDecode_snapshot (hW : Config.minWidth ≤ W) (w : Word W) (s : State W) :
    { Pseudocode.snapshot s with
      IR := w.toInt, OPC := Pseudocode.truncQuot w.toInt 100, OPD := Pseudocode.truncRem w.toInt 100 } =
      Pseudocode.snapshot (fetchDecode w s) := by
  rw [truncQuot_eq_quot, truncRem_eq_rem, ← toInt_opcodeOf hW, ← toInt_operandOf hW]
  rfl

/-! ### The execute actions -/

/-- An unrecognized code raises IllegalOpcode. -/
theorem execute_of_not_mem {p : Pseudocode.Snapshot} (h : p.OPC ∉ Config.opcodes) :
    Pseudocode.execute W p = Pseudocode.fail .illegalOpcode p.IC p.IR p := by
  simp only [Config.opcodes, List.mem_cons, List.not_mem_nil, or_false, not_or] at h
  simp [Pseudocode.execute, h]

/-- Every instruction does on the machine what its execute action does on the snapshot. -/
theorem outcome_execute {i : Instr} {s : State W} (hW : Config.minWidth ≤ W) (hm : s.mem.wf = true)
    (hinputs : ∀ v ∈ s.rtQueue, acceptsRuntime v = true) (hic : s.ic.toNat ≤ 99) (haa : i.operand ≤ 99)
    (hopc : (Pseudocode.snapshot s).OPC = i.opcode) (hopd : (Pseudocode.snapshot s).OPD = i.operand) :
    Pseudocode.outcome (execute i s) = Pseudocode.execute W (Pseudocode.snapshot s) := by
  have hpos : 0 < W := Nat.lt_of_lt_of_le (by decide) hW
  have hcode : ∀ c, (Pseudocode.snapshot s).OPC = c ↔ i.opcode = c := fun c => by rw [hopc]
  unfold Pseudocode.execute
  cases i <;> simp only [Instr.operand] at haa hopd <;> simp only [hcode, Instr.opcode, Int.reduceEq, if_true, if_false]
  case read aa =>
    cases hq : s.rtQueue with
    | nil =>
      have hin : (Pseudocode.snapshot s).inputs = [] := hq
      rw [execute_read_of_empty aa hq, hin]
      rfl
    | cons v q =>
      have hin : (Pseudocode.snapshot s).inputs = v :: q := hq
      have hv : (wrap v : Word W).toInt = v := toInt_wrap_of_acceptsRuntime hW (hinputs v (by simp [hq]))
      rw [execute_read_of_cons haa hq, hin]
      dsimp only
      rw [writing_snapshot hm hopd haa hv]
      exact (next_snapshot (s := { s with mem := memSet s.mem aa (wrap v), rtQueue := q }) hic).symm
  case write aa =>
    have hout : (Pseudocode.snapshot (outPut (memGet s.mem aa) s)).out =
        (Pseudocode.snapshot s).out ++ [(memGet s.mem aa).toInt] := by simp [Pseudocode.snapshot]
    rw [execute_write_of_le haa, reading_snapshot hopd haa, ← hout]
    exact (next_snapshot (s := outPut (memGet s.mem aa) s) hic).symm
  case load aa =>
    rw [execute_load_of_le haa, reading_snapshot hopd haa]
    exact (next_snapshot (s := setAcc (memGet s.mem aa) s) hic).symm
  case store aa =>
    rw [execute_store_of_le haa, writing_snapshot hm hopd haa (y := (Pseudocode.snapshot s).ACC) rfl]
    exact (next_snapshot (s := { s with mem := memSet s.mem aa s.acc }) hic).symm
  case add aa =>
    rw [execute_add_of_le haa, reading_snapshot hopd haa]
    exact (next_accumulate hpos hic _).symm
  case subtract aa =>
    rw [execute_subtract_of_le haa, reading_snapshot hopd haa]
    exact (next_accumulate hpos hic _).symm
  case multiply aa =>
    rw [execute_multiply_of_le haa, reading_snapshot hopd haa]
    exact (next_accumulate hpos hic _).symm
  case divide aa =>
    rw [reading_snapshot hopd haa, truncQuot_eq_quot]
    by_cases hzero : memGet s.mem aa = 0
    · rw [execute_divide_of_eq_zero haa hzero, if_pos (by simp [hzero])]
      rfl
    · have hne : (memGet s.mem aa).toInt ≠ 0 := mt (acc_toInt_eq_zero_iff (setAcc (memGet s.mem aa) s)).1 hzero
      rw [execute_divide_of_ne_zero haa hzero, if_neg hne]
      exact (next_accumulate hpos hic _).symm
  case branch aa => exact (jump_snapshot hopd haa s).symm
  case branchneg aa =>
    by_cases hneg : (Pseudocode.snapshot s).ACC < 0
    · rw [execute_branchneg_of_neg aa hneg, if_pos hneg]
      exact (jump_snapshot hopd haa s).symm
    · rw [execute_branchneg_of_nonneg aa (not_lt.1 hneg), if_neg hneg]
      exact (next_snapshot hic).symm
  case branchzero aa =>
    by_cases hzero : (Pseudocode.snapshot s).ACC = 0
    · rw [execute_branchzero_of_eq_zero aa ((acc_toInt_eq_zero_iff s).1 hzero), if_pos hzero]
      exact (jump_snapshot hopd haa s).symm
    · rw [execute_branchzero_of_ne_zero aa (mt (acc_toInt_eq_zero_iff s).2 hzero), if_neg hzero]
      exact (next_snapshot hic).symm
  case halt aa => exact (next_snapshot (s := stopWith .halted .halt (pcAddr s) s.ir s) hic).symm

/-- Settles O41: the guards agree, the fetch reads the same word, and then the dispatched actions do the same. -/
theorem engineRefinesThePseudocode : Obligations.EngineRefinesThePseudocode := by
  intro W limit s hW hrun hm hinputs
  unfold Pseudocode.engine
  by_cases hic : limit.value < s.ic.toNat
  · have hguard : (Pseudocode.snapshot s).IC > limit.value := Int.ofNat_lt.2 hic
    rw [transaction_runaway hrun hic, if_pos hguard]
    rfl
  · have hguard : ¬ (Pseudocode.snapshot s).IC > limit.value := mt Int.ofNat_lt.1 hic
    have hlimit : s.ic.toNat ≤ limit.value := Nat.not_lt.1 hic
    have hic99 : s.ic.toNat ≤ 99 := hlimit.trans (limit_le limit)
    have hfetch : Fetches limit s (memGet s.mem s.ic.toNat) := ⟨hrun, hlimit, rfl⟩
    have hpc : (Pseudocode.snapshot s).IC = s.ic.toNat := rfl
    rw [if_neg hguard, reading_snapshot hpc hic99, fetchDecode_snapshot hW]
    cases hdecode : decode (memGet s.mem s.ic.toNat) with
    | error e =>
      have hcode := ((decode_error_iff hW _ e).1 hdecode).1
      rw [← toInt_opcodeOf hW] at hcode
      rw [transaction_of_illegal_opcode hfetch hcode]
      exact (execute_of_not_mem (p := Pseudocode.snapshot (fetchDecode _ s)) hcode).symm
    | ok i =>
      obtain ⟨hopc, hopd⟩ := opcode_operand_of_decode hW hdecode
      rw [← toInt_opcodeOf hW] at hopc
      rw [← toInt_operandOf hW] at hopd
      rw [transaction_of_instruction hfetch hdecode]
      exact outcome_execute (s := fetchDecode _ s) hW hm hinputs hic99 (operand_le_of_decode hdecode) hopc.symm hopd.symm

end Sys2Proof.Machine
end
